-- ==== Sys2Proof/Word.lean ====
section
/-! DEFINITION. The word types and the arithmetic primitives of spec/00_scope.md R8 and R9. -/

namespace Sys2Proof

/-- A byte: 8 bits, the width of a general register, a timer and a memory cell (R6). -/
abbrev Byte := BitVec 8

/-- A 16-bit word: the width of an opcode, I, PC and a stack slot (R6). -/
abbrev Word := BitVec 16

/-- `trunc8(v) = v mod 256` (R9). -/
def trunc8 (v : Nat) : Byte := BitVec.ofNat 8 v

/-- `trunc16(v) = v mod 65536` (R9). -/
def trunc16 (v : Nat) : Word := BitVec.ofNat 16 v

/-- `zext_16(v)`: an 8-bit or 12-bit value widened with zero bits (R9). -/
def zext16 {w : Nat} (v : BitVec w) : Word := v.setWidth 16

end Sys2Proof
end

