-- ==== Sys2Proof/Syntax.lean ====
section
/-! DEFINITION. The 34 instructions (spec/30_encoding.md R104, R105; spec/opcode_table.json), one
constructor per row of the table, under the labels of R105. -/

namespace Sys2Proof

/-- The index of a general register: "a 4-bit field, so every index 0..15 names a register" (R30). -/
abbrev RegIdx := Fin 16

/-- An instruction with its operand fields extracted (R101, R102, R105). The types carry the operands'
ranges, so every term is a legal instruction. -/
inductive Instr where
  /-- 00E0: clear the framebuffer (R270). -/
  | cls
  /-- 00EE: return from subroutine (R171). -/
  | ret
  /-- 1nnn: jump (R172). -/
  | jp (nnn : BitVec 12)
  /-- 2nnn: call subroutine (R173). -/
  | call (nnn : BitVec 12)
  /-- 3xkk: skip if register equals immediate (R174). -/
  | seImm (x : RegIdx) (kk : Byte)
  /-- 4xkk: skip if register differs from immediate (R175). -/
  | sneImm (x : RegIdx) (kk : Byte)
  /-- 5xy0: skip if registers are equal (R176). -/
  | seReg (x y : RegIdx)
  /-- 6xkk: load immediate (R201). -/
  | ldImm (x : RegIdx) (kk : Byte)
  /-- 7xkk: add immediate (R202). -/
  | addImm (x : RegIdx) (kk : Byte)
  /-- 8xy0: move register (R203). -/
  | mov (x y : RegIdx)
  /-- 8xy1: bitwise OR (R204). -/
  | or (x y : RegIdx)
  /-- 8xy2: bitwise AND (R205). -/
  | and (x y : RegIdx)
  /-- 8xy3: bitwise XOR (R206). -/
  | xor (x y : RegIdx)
  /-- 8xy4: add with carry (R208). -/
  | add (x y : RegIdx)
  /-- 8xy5: subtract, VF = no-borrow (R209). -/
  | sub (x y : RegIdx)
  /-- 8xy6: shift right; y is decoded and not used (R103, R210). -/
  | shr (x y : RegIdx)
  /-- 8xy7: reverse subtract, VF = no-borrow (R211). -/
  | subn (x y : RegIdx)
  /-- 8xyE: shift left; y is decoded and not used (R103, R212). -/
  | shl (x y : RegIdx)
  /-- 9xy0: skip if registers differ (R177). -/
  | sneReg (x y : RegIdx)
  /-- Annn: load I (R241). -/
  | ldI (nnn : BitVec 12)
  /-- Bnnn: jump to nnn plus V0 (R178). -/
  | jpV0 (nnn : BitVec 12)
  /-- Cxkk: random byte AND immediate (R213). -/
  | rnd (x : RegIdx) (kk : Byte)
  /-- Dxyn: draw sprite of n rows (R272). -/
  | drw (x y : RegIdx) (n : Fin 16)
  /-- Ex9E: skip if key pressed (R291). -/
  | skp (x : RegIdx)
  /-- ExA1: skip if key not pressed (R292). -/
  | sknp (x : RegIdx)
  /-- Fx07: read delay timer (R293). -/
  | ldXDt (x : RegIdx)
  /-- Fx0A: wait for a key (R294). -/
  | ldXK (x : RegIdx)
  /-- Fx15: set delay timer (R296). -/
  | ldDtX (x : RegIdx)
  /-- Fx18: set sound timer (R297). -/
  | ldStX (x : RegIdx)
  /-- Fx1E: add register to I (R242). -/
  | addIX (x : RegIdx)
  /-- Fx29: point I at a font glyph (R243). -/
  | ldFX (x : RegIdx)
  /-- Fx33: store BCD (R244). -/
  | bcd (x : RegIdx)
  /-- Fx55: store registers V0..Vx (R245). -/
  | store (x : RegIdx)
  /-- Fx65: load registers V0..Vx (R246). -/
  | load (x : RegIdx)
deriving DecidableEq, Repr

end Sys2Proof
end

