-- ==== Sys2Proof/WellFormed.lean ====
section
/-! DEFINITION. What raw terms must satisfy before they mean something: an opcode word is legal
(spec/30_encoding.md R106) and a ROM image fits (spec/70_reset_and_hazards.md R351). An `Instr` needs no
check of its own: its operand types carry the ranges of R102. -/

namespace Sys2Proof

/-- The sub-variants of family 0x8 (R104): `n ∈ {0,1,2,3,4,5,6,7,E}`. -/
def aluVariants : List Nat := [0x0, 0x1, 0x2, 0x3, 0x4, 0x5, 0x6, 0x7, 0xE]

/-- The sub-variants of family 0xE (R104): `kk ∈ {9E, A1}`. -/
def keyVariants : List Nat := [0x9E, 0xA1]

/-- The sub-variants of family 0xF (R104): nine values of kk. -/
def miscVariants : List Nat := [0x07, 0x0A, 0x15, 0x18, 0x1E, 0x29, 0x33, 0x55, 0x65]

/-- A word is legal when none of the six classes of R106 holds it. The classes are written here as the
rule lists them, apart from the decoder. -/
def legalWord (op : Word) : Bool :=
  let w := op.toNat
  let f := w / 0x1000
  let n := w % 0x10
  let kk := w % 0x100
  !(f == 0x0 && !(w == 0x00E0 || w == 0x00EE))
  && !(f == 0x5 && n != 0)
  && !(f == 0x8 && !aluVariants.contains n)
  && !(f == 0x9 && n != 0)
  && !(f == 0xE && !keyVariants.contains kk)
  && !(f == 0xF && !miscVariants.contains kk)

/-- ROM_MAX of R6. -/
abbrev romMax : Nat := 3584

/-- A ROM image fits when its length is at most ROM_MAX; an odd length and the empty image are accepted
(R351, D22). -/
def romFits (rom : List Byte) : Bool := rom.length ≤ romMax

end Sys2Proof
end

