-- ==== Sys2Proof/Decode.lean ====
section
/-! DEFINITION. The decoder of spec/30_encoding.md R101-R107, total on words and on bytes, and the
encoder written from the same encoding table. -/

namespace Sys2Proof

/-- Why a decoder has no instruction to give. -/
inductive DecodeError where
  /-- The verdict `unknown` of R105: the word is illegal (R106). -/
  | unknownOpcode (op : Word)
  /-- Fewer than two bytes: no word to decode (R100). -/
  | truncated
deriving DecidableEq, Repr

/-- F, the family: `op[15:12]` (R101). -/
def fieldF (op : Word) : BitVec 4 := op.extractLsb' 12 4

/-- x, the first register index: `op[11:8]` (R101). -/
def fieldX (op : Word) : RegIdx := (op.extractLsb' 8 4).toFin

/-- y, the second register index: `op[7:4]` (R101). -/
def fieldY (op : Word) : RegIdx := (op.extractLsb' 4 4).toFin

/-- n, the trailing nibble: `op[3:0]` (R101). -/
def fieldN (op : Word) : BitVec 4 := op.extractLsb' 0 4

/-- kk, the immediate byte: `op[7:0]` (R101). -/
def fieldKK (op : Word) : Byte := op.extractLsb' 0 8

/-- nnn, the address operand: `op[11:0]` (R101). -/
def fieldNNN (op : Word) : BitVec 12 := op.extractLsb' 0 12

/-- Family 0x0: only two whole words are legal (R104). -/
def decode0 (op : Word) : Except DecodeError Instr :=
  if op = 0x00E0#16 then .ok .cls
  else if op = 0x00EE#16 then .ok .ret
  else .error (.unknownOpcode op)

/-- Family 0x8, selected by n (R104). -/
def decode8 (op : Word) : Except DecodeError Instr :=
  match fieldN op with
  | 0x0#4 => .ok (.mov (fieldX op) (fieldY op))
  | 0x1#4 => .ok (.or (fieldX op) (fieldY op))
  | 0x2#4 => .ok (.and (fieldX op) (fieldY op))
  | 0x3#4 => .ok (.xor (fieldX op) (fieldY op))
  | 0x4#4 => .ok (.add (fieldX op) (fieldY op))
  | 0x5#4 => .ok (.sub (fieldX op) (fieldY op))
  | 0x6#4 => .ok (.shr (fieldX op) (fieldY op))
  | 0x7#4 => .ok (.subn (fieldX op) (fieldY op))
  | 0xE#4 => .ok (.shl (fieldX op) (fieldY op))
  | _ => .error (.unknownOpcode op)

/-- Family 0xE, selected by kk (R104). -/
def decodeE (op : Word) : Except DecodeError Instr :=
  match fieldKK op with
  | 0x9E#8 => .ok (.skp (fieldX op))
  | 0xA1#8 => .ok (.sknp (fieldX op))
  | _ => .error (.unknownOpcode op)

/-- Family 0xF, selected by kk (R104). -/
def decodeF (op : Word) : Except DecodeError Instr :=
  match fieldKK op with
  | 0x07#8 => .ok (.ldXDt (fieldX op))
  | 0x0A#8 => .ok (.ldXK (fieldX op))
  | 0x15#8 => .ok (.ldDtX (fieldX op))
  | 0x18#8 => .ok (.ldStX (fieldX op))
  | 0x1E#8 => .ok (.addIX (fieldX op))
  | 0x29#8 => .ok (.ldFX (fieldX op))
  | 0x33#8 => .ok (.bcd (fieldX op))
  | 0x55#8 => .ok (.store (fieldX op))
  | 0x65#8 => .ok (.load (fieldX op))
  | _ => .error (.unknownOpcode op)

/-- `decode(op)` of R105. The last arm of the match is never taken: the sixteen before it are all the
values of F. -/
def decode (op : Word) : Except DecodeError Instr :=
  match fieldF op with
  | 0x0#4 => decode0 op
  | 0x1#4 => .ok (.jp (fieldNNN op))
  | 0x2#4 => .ok (.call (fieldNNN op))
  | 0x3#4 => .ok (.seImm (fieldX op) (fieldKK op))
  | 0x4#4 => .ok (.sneImm (fieldX op) (fieldKK op))
  | 0x5#4 => if fieldN op = 0 then .ok (.seReg (fieldX op) (fieldY op)) else .error (.unknownOpcode op)
  | 0x6#4 => .ok (.ldImm (fieldX op) (fieldKK op))
  | 0x7#4 => .ok (.addImm (fieldX op) (fieldKK op))
  | 0x8#4 => decode8 op
  | 0x9#4 => if fieldN op = 0 then .ok (.sneReg (fieldX op) (fieldY op)) else .error (.unknownOpcode op)
  | 0xA#4 => .ok (.ldI (fieldNNN op))
  | 0xB#4 => .ok (.jpV0 (fieldNNN op))
  | 0xC#4 => .ok (.rnd (fieldX op) (fieldKK op))
  | 0xD#4 => .ok (.drw (fieldX op) (fieldY op) (fieldN op).toFin)
  | 0xE#4 => decodeE op
  | 0xF#4 => decodeF op
  | _ => .error (.unknownOpcode op)

/-- The decoder on bytes: an opcode is two bytes, the more significant one at the lower address
(R73, R100). It gives the instruction and the bytes that follow it. -/
def decodeBytes : List Byte → Except DecodeError (Instr × List Byte)
  | hi :: lo :: rest => (decode (hi ++ lo)).map (fun i => (i, rest))
  | _ => .error .truncated

/-- The format class `nnn` of R103. -/
def packNNN (f : BitVec 4) (nnn : BitVec 12) : Word := f ++ nnn

/-- The format classes `xkk` and, with kk fixed, `x` of R103. -/
def packXKK (f : BitVec 4) (x : RegIdx) (kk : Byte) : Word := f ++ BitVec.ofFin (w := 4) x ++ kk

/-- The format classes `xyn` and, with n fixed, `xy` of R103. -/
def packXYN (f : BitVec 4) (x y : RegIdx) (n : BitVec 4) : Word :=
  f ++ BitVec.ofFin (w := 4) x ++ BitVec.ofFin (w := 4) y ++ n

/-- The word of an instruction, from the rows of spec/opcode_table.json (R103, R104). -/
def encode : Instr → Word
  | .cls => 0x00E0#16
  | .ret => 0x00EE#16
  | .jp nnn => packNNN 0x1 nnn
  | .call nnn => packNNN 0x2 nnn
  | .seImm x kk => packXKK 0x3 x kk
  | .sneImm x kk => packXKK 0x4 x kk
  | .seReg x y => packXYN 0x5 x y 0x0
  | .ldImm x kk => packXKK 0x6 x kk
  | .addImm x kk => packXKK 0x7 x kk
  | .mov x y => packXYN 0x8 x y 0x0
  | .or x y => packXYN 0x8 x y 0x1
  | .and x y => packXYN 0x8 x y 0x2
  | .xor x y => packXYN 0x8 x y 0x3
  | .add x y => packXYN 0x8 x y 0x4
  | .sub x y => packXYN 0x8 x y 0x5
  | .shr x y => packXYN 0x8 x y 0x6
  | .subn x y => packXYN 0x8 x y 0x7
  | .shl x y => packXYN 0x8 x y 0xE
  | .sneReg x y => packXYN 0x9 x y 0x0
  | .ldI nnn => packNNN 0xA nnn
  | .jpV0 nnn => packNNN 0xB nnn
  | .rnd x kk => packXKK 0xC x kk
  | .drw x y n => packXYN 0xD x y (BitVec.ofFin (w := 4) n)
  | .skp x => packXKK 0xE x 0x9E
  | .sknp x => packXKK 0xE x 0xA1
  | .ldXDt x => packXKK 0xF x 0x07
  | .ldXK x => packXKK 0xF x 0x0A
  | .ldDtX x => packXKK 0xF x 0x15
  | .ldStX x => packXKK 0xF x 0x18
  | .addIX x => packXKK 0xF x 0x1E
  | .ldFX x => packXKK 0xF x 0x29
  | .bcd x => packXKK 0xF x 0x33
  | .store x => packXKK 0xF x 0x55
  | .load x => packXKK 0xF x 0x65

/-- A row of spec/opcode_table.json: the fixed bits and where they stand. -/
structure OpcodeRow where
  pattern : Word
  mask    : Word
deriving DecidableEq, Repr

/-- The row of an instruction, the table's columns match and mask written out. -/
def opcodeRow : Instr → OpcodeRow
  | .cls => ⟨0x00E0, 0xFFFF⟩
  | .ret => ⟨0x00EE, 0xFFFF⟩
  | .jp _ => ⟨0x1000, 0xF000⟩
  | .call _ => ⟨0x2000, 0xF000⟩
  | .seImm _ _ => ⟨0x3000, 0xF000⟩
  | .sneImm _ _ => ⟨0x4000, 0xF000⟩
  | .seReg _ _ => ⟨0x5000, 0xF00F⟩
  | .ldImm _ _ => ⟨0x6000, 0xF000⟩
  | .addImm _ _ => ⟨0x7000, 0xF000⟩
  | .mov _ _ => ⟨0x8000, 0xF00F⟩
  | .or _ _ => ⟨0x8001, 0xF00F⟩
  | .and _ _ => ⟨0x8002, 0xF00F⟩
  | .xor _ _ => ⟨0x8003, 0xF00F⟩
  | .add _ _ => ⟨0x8004, 0xF00F⟩
  | .sub _ _ => ⟨0x8005, 0xF00F⟩
  | .shr _ _ => ⟨0x8006, 0xF00F⟩
  | .subn _ _ => ⟨0x8007, 0xF00F⟩
  | .shl _ _ => ⟨0x800E, 0xF00F⟩
  | .sneReg _ _ => ⟨0x9000, 0xF00F⟩
  | .ldI _ => ⟨0xA000, 0xF000⟩
  | .jpV0 _ => ⟨0xB000, 0xF000⟩
  | .rnd _ _ => ⟨0xC000, 0xF000⟩
  | .drw _ _ _ => ⟨0xD000, 0xF000⟩
  | .skp _ => ⟨0xE09E, 0xF0FF⟩
  | .sknp _ => ⟨0xE0A1, 0xF0FF⟩
  | .ldXDt _ => ⟨0xF007, 0xF0FF⟩
  | .ldXK _ => ⟨0xF00A, 0xF0FF⟩
  | .ldDtX _ => ⟨0xF015, 0xF0FF⟩
  | .ldStX _ => ⟨0xF018, 0xF0FF⟩
  | .addIX _ => ⟨0xF01E, 0xF0FF⟩
  | .ldFX _ => ⟨0xF029, 0xF0FF⟩
  | .bcd _ => ⟨0xF033, 0xF0FF⟩
  | .store _ => ⟨0xF055, 0xF0FF⟩
  | .load _ => ⟨0xF065, 0xF0FF⟩

/-- The opcode that a table word of `nbits` bits stands for: the bits above `nbits` are 0. -/
def tableWord (nbits w : Nat) : Word := BitVec.ofNat 16 (w % 2 ^ nbits)

/-- The two bytes of a word as the hardware stores them, the lower address first: big-endian (R73). -/
def wordBytes (op : Word) : List Byte := [op.extractLsb' 8 8, op.extractLsb' 0 8]

/-- The instruction the decoder reads from the word of an opcode-table row, laid out in memory order. -/
def decodeTableWord (nbits w : Nat) : Option Instr :=
  match decodeBytes (wordBytes (tableWord nbits w)) with
  | .ok (i, _) => some i
  | .error _ => none

end Sys2Proof
end

