-- ==== Sys2Proof/Config.lean ====
section
/-! DEFINITION. The parameters the spec leaves open (spec/00_scope.md R7) and the free values. -/

namespace Sys2Proof

/-- FONT_LEN of R6. -/
abbrev fontLen : Nat := 80

/-- VF_DEST_POLICY (R7, R207): what a flag-writing ALU instruction leaves in VF when VF is also its
destination. -/
inductive VfDestPolicy where
  /-- The final VF is the result or the flag, and the spec does not say which. -/
  | either
  /-- The result is written last. -/
  | resultLast
  /-- The flag is written last. -/
  | flagLast
deriving DecidableEq, Repr

/-- FONT_WRITE_POLICY (R7, R77): what a program's write into 0x000-0x04F does. -/
inductive FontWritePolicy where
  /-- It raises FONT_WRITE. -/
  | fault
  /-- It takes place. -/
  | allow
deriving DecidableEq, Repr

/-- The open parameters of R7. "A model takes each as an argument": State carries them, no step
changes them, and a claim about every state ranges over all their values (log 2). -/
structure Params where
  /-- FONT: glyph d occupies bytes 5d to 5d+4 (R52). -/
  font      : Vector Byte fontLen
  /-- VF_DEST_POLICY. -/
  vfDest    : VfDestPolicy
  /-- FONT_WRITE_POLICY. -/
  fontWrite : FontWritePolicy
deriving DecidableEq, Repr

/-- The keypad snapshot the host supplies in the cycle numbered by the argument, where no action is
scripted: a free value (R42, D25, log 6). -/
opaque Config.keysInput : Nat → Vector Bool 16

/-- The random byte the host supplies in the cycle numbered by the argument, where no action is
scripted: a free value (R43, D24, log 6). -/
opaque Config.randInput : Nat → Byte

/-- The draw of R207 under VF_DEST_POLICY `either`: true takes the result, false the flag. A free
value of the cycle numbered by the argument (D11, log 5). -/
opaque Config.vfDraw : Nat → Bool

end Sys2Proof
end

