-- ==== Sys2Proof/Machine/Defaults.lean ====
section
/-! DEFINITION. The parameter values `State.reset` takes: the defaults of spec/00_scope.md R7. -/

namespace Sys2Proof.Machine

/-- The bytes of the default FONT of R52, a line for each digit from 0 up. PRESUMED: the spec marks the glyphs as
general knowledge, not from its source (N1, D23, G2; log 3). -/
def defaultFontBytes : List Byte :=
  [0xF0, 0x90, 0x90, 0x90, 0xF0] ++
  [0x20, 0x60, 0x20, 0x20, 0x70] ++
  [0xF0, 0x10, 0xF0, 0x80, 0xF0] ++
  [0xF0, 0x10, 0xF0, 0x10, 0xF0] ++
  [0x90, 0x90, 0xF0, 0x10, 0x10] ++
  [0xF0, 0x80, 0xF0, 0x10, 0xF0] ++
  [0xF0, 0x80, 0xF0, 0x90, 0xF0] ++
  [0xF0, 0x10, 0x20, 0x40, 0x40] ++
  [0xF0, 0x90, 0xF0, 0x90, 0xF0] ++
  [0xF0, 0x90, 0xF0, 0x10, 0xF0] ++
  [0xF0, 0x90, 0xF0, 0x90, 0x90] ++
  [0xE0, 0x90, 0xE0, 0x90, 0xE0] ++
  [0xF0, 0x80, 0x80, 0x80, 0xF0] ++
  [0xE0, 0x90, 0x90, 0x90, 0xE0] ++
  [0xF0, 0x80, 0xF0, 0x80, 0xF0] ++
  [0xF0, 0x80, 0xF0, 0x80, 0x80]

/-- The default FONT (R52). -/
def defaultFont : Vector Byte fontLen := ⟨defaultFontBytes.toArray, by decide⟩

/-- The defaults of R7: VF_DEST_POLICY = `either`, FONT_WRITE_POLICY = `fault`, FONT = the table of R52. -/
def defaultParams : Params :=
  { font := defaultFont, vfDest := .either, fontWrite := .fault }

end Sys2Proof.Machine
end

