-- ==== Sys2Proof/Machine/State.lean ====
section
/-! DEFINITION. The state of the block (spec/10_state.md), the reasons a step can stop, and the state
after initialisation (spec/70_reset_and_hazards.md R350). -/

namespace Sys2Proof.Machine

/-- A keypad snapshot: "16 boolean values, one per hexadecimal key" (R42). -/
abbrev Keypad := Vector Bool 16

/-- FB: 32 rows of 64 one-bit pixels (R40). Row py, column px. -/
abbrev Framebuffer := Vector (Vector Bool 64) 32

/-- MEM as the list of the bytes that differ from their initial value, addresses strictly rising (R44).
What an unlisted address holds is `initByte`. -/
abbrev Memory := List Host.Cell

/-- The fault codes 1 to 7 of R311. Code 0, NONE, is the empty latch. -/
inductive FaultCode where
  /-- Code 1, raised by fetch: PC > 0xFFE. -/
  | fetchOutOfRange
  /-- Code 2, raised by decode: the word is illegal. -/
  | unknownOpcode
  /-- Code 3, raised by 2nnn: SP = 16. -/
  | stackOverflow
  /-- Code 4, raised by 00EE: SP = 0. -/
  | stackUnderflow
  /-- Code 5, raised by Dxyn, Fx33, Fx55, Fx65: effective address > 0xFFF. -/
  | memOutOfRange
  /-- Code 6, raised by Fx33, Fx55: write address ≤ 0x04F under FONT_WRITE_POLICY = fault. -/
  | fontWrite
  /-- Code 7, raised by Ex9E, ExA1: V[x] > 0x0F. -/
  | keyIndexOutOfRange
deriving DecidableEq, Repr

/-- What the FAULT latch records (R46, R311): a code and its info, an unbounded natural because an
effective address is one (R75). -/
structure FaultRecord where
  code : FaultCode
  info : Nat
deriving DecidableEq, Repr

/-- The output `load_status` of R340. -/
inductive LoadStatus where
  /-- The ROM was copied. -/
  | ok
  /-- The ROM exceeds 3584 bytes and nothing was copied. -/
  | rejected
deriving DecidableEq, Repr

/-- What the host can do to the block between cycles (R340, R345). -/
inductive HostAction where
  /-- Initialise all state (R350). -/
  | init
  /-- Copy a ROM to 0x200 (R351). -/
  | load (rom : List Byte)
  /-- Run one cycle with this keypad snapshot and random byte (R140). -/
  | cycle (keys : Keypad) (rand : Byte)
  /-- REDRAW becomes false (R341). -/
  | clearRedraw
deriving DecidableEq, Repr

/-- The state: everything of R30 to R46, then the open parameters of R7, the `load_status` port, and the
model's own bookkeeping of the host (INVENTORY.md, State). -/
structure State where
  /-- V0..VF (R30, R31). -/
  v          : Vector Byte 16
  /-- I (R33). -/
  i          : Word
  /-- PC (R34, R35). -/
  pc         : Word
  /-- SP, an integer in 0..16 (R36). -/
  sp         : Fin 17
  /-- STACK (R37). -/
  stack      : Vector Word 16
  /-- DT (R38). -/
  dt         : Byte
  /-- ST (R39). -/
  st         : Byte
  /-- FB (R40). -/
  fb         : Framebuffer
  /-- REDRAW (R41). -/
  redraw     : Bool
  /-- MEM (R44). -/
  mem        : Memory
  /-- AWAIT (R45). -/
  await      : Option RegIdx
  /-- FAULT (R46). -/
  fault      : Option FaultRecord
  /-- FONT, VF_DEST_POLICY, FONT_WRITE_POLICY (R7): no step changes them. -/
  params     : Params
  /-- The output `load_status` (R340, R351, log 9). -/
  loadStatus : Option LoadStatus
  /-- The model's own: the host's coming actions, the next one first (log 7). -/
  script     : List HostAction
  /-- The model's own: a counter of steps, the argument of the free values (log 5, log 6). -/
  tick       : Nat
  /-- The model's own: the last host action was `init`, so a `load` is in the contract (log 8). -/
  freshInit  : Bool
deriving DecidableEq, Repr

/-- The reasons for the outcome `fault`: there are none. Every fatal condition of the spec has an effect
it describes, the FAULT latch (R310, R311), so a cycle that meets one answers `next`. Safe: an empty type
lets no step end this way (log 1). -/
inductive Fault where
deriving DecidableEq, Repr

/-- The reasons for the outcome `refused`. -/
inductive Refusal where
  /-- Raised by `exec` for an instruction that has no meaning yet; no arm is left that does. Safe. -/
  | notModelled (mnemonic : String)
  /-- Raised by a host `load` that does not come directly after `init`: "a load at other times is
  unmodelled" (R345, D22, U16, log 8). Safe: a claim says nothing of such a run. -/
  | loadOutsideContract
deriving DecidableEq, Repr

/-- `init()` of R350 for given parameters: the reset values of R49. `tick` and `script` start at values
of the model's own (log 5, log 7). -/
def State.resetWith (p : Params) : State :=
  { v          := Vector.replicate 16 0
    i          := 0
    pc         := 0x200
    sp         := 0
    stack      := Vector.replicate 16 0
    dt         := 0
    st         := 0
    fb         := Vector.replicate 32 (Vector.replicate 64 false)
    redraw     := false
    mem        := []
    await      := none
    fault      := none
    params     := p
    loadStatus := none
    script     := []
    tick       := 0
    freshInit  := true }

/-- The machine right after reset, under the spec's default parameters (R7, R49, R350). -/
def State.reset : State := State.resetWith defaultParams

end Sys2Proof.Machine
end

