-- ==== Sys2Proof/Machine/Memory.lean ====
section
/-! DEFINITION. MEM (spec/20_memory.md): what an address holds, and one byte read and written, over the
canonical list. Nothing here checks an address; the checks of R76 and R77 are `checkRead` and
`checkWrite`. -/

namespace Sys2Proof.Machine

/-- MEM_SIZE of R6. -/
abbrev memSize : Nat := 4096

/-- PROG_BASE of R6. -/
abbrev progBase : Nat := 0x200

/-- What an unlisted address holds: its value after initialisation, FONT at 0x000-0x04F and 0 elsewhere
(R49, R350, R72, R78). -/
def initByte (p : Params) (a : Nat) : Byte :=
  if h : a < fontLen then p.font[a] else 0

/-- The canonical form: addresses strictly rising and inside the space, no entry equal to what an
unlisted address holds. -/
abbrev Memory.wf (p : Params) (m : Memory) : Prop :=
  m.Pairwise (fun c d => c.1 < d.1) ∧ ∀ c ∈ m, c.1 < memSize ∧ c.2 ≠ initByte p c.1

/-- The byte at an address. -/
def Memory.read (p : Params) (m : Memory) (a : Nat) : Byte :=
  (m.lookup a).getD (initByte p a)

/-- List an entry in its place, over any earlier one of the same address. -/
def Memory.insert (a : Nat) (b : Byte) : Memory → Memory
  | [] => [(a, b)]
  | c :: m => if a < c.1 then (a, b) :: c :: m else if a = c.1 then (a, b) :: m else c :: Memory.insert a b m

/-- Unlist an address. -/
def Memory.erase (a : Nat) (m : Memory) : Memory := m.filter (fun c => c.1 != a)

/-- `MEM[a] <- b`. Writing the initial value unlists the address, so that equal memories are equal data. -/
def Memory.write (p : Params) (m : Memory) (a : Nat) (b : Byte) : Memory :=
  if b = initByte p a then Memory.erase a m else Memory.insert a b m

/-- Bytes stored one after another from an address up, in increasing address order (R74, R82). -/
def Memory.writeList (p : Params) (m : Memory) (a : Nat) : List Byte → Memory
  | [] => m
  | b :: bs => Memory.writeList p (Memory.write p m a b) (a + 1) bs

/-- The check of `MemRead(ea, 1)` (R76). -/
def checkRead (ea : Nat) : Option FaultRecord :=
  if ea > 0xFFF then some ⟨.memOutOfRange, ea⟩ else none

/-- The checks of `MemWrite(ea, 1, v)` (R77): the range first, then the font region. -/
def checkWrite (p : Params) (ea : Nat) : Option FaultRecord :=
  if ea > 0xFFF then some ⟨.memOutOfRange, ea⟩
  else if ea ≤ 0x04F ∧ p.fontWrite = .fault then some ⟨.fontWrite, ea⟩
  else none

/-- The first failing byte of an access of n bytes from ea up, in increasing address order (R79). -/
def firstFault (check : Nat → Option FaultRecord) (ea n : Nat) : Option FaultRecord :=
  (List.range n).findSome? (fun j => check (ea + j))

end Sys2Proof.Machine
end

