-- ==== Sys2Proof/Machine/Ops.lean ====
section
/-! DEFINITION. The operations over the state that the meanings share: register, PC, stack, timer and
framebuffer writes, memory transfers, and the taking of a fault. -/

namespace Sys2Proof.Machine

/-- What a step or a meaning answers. -/
abbrev Result := Host.Outcome State Fault Refusal

/-! ### Faults -/

/-- `raise Fault(code, info)`, the taking of an exception (R310, R311, R144, R316): the latch is set and
nothing else of the state the cycle started in changes. PC stays; no mode, mask or stack changes; there
is no handler and no instruction that returns from a fault, only `init` leaves it (R353). -/
def State.raiseFault (s : State) (f : FaultRecord) : State := { s with fault := some f }

/-- The end of a meaning that started in s: its effects are committed, or, where it raised a fault, none
of them and the fault is taken (R12, R144). -/
def State.commit (s : State) : Except FaultRecord State → Result
  | .ok t => .next t
  | .error f => .next (s.raiseFault f)

/-! ### Registers -/

/-- `V[x]` (R10). -/
def State.reg (s : State) (x : RegIdx) : Byte := s.v[x]

/-- `V[x] <- b` (R10). No register is hardwired (R30). -/
def State.setReg (s : State) (x : RegIdx) (b : Byte) : State := { s with v := s.v.set x b }

/-- The index of VF, the flag register (R31). -/
def vf : RegIdx := 0xF

/-- `V[k] <- t[k]` for every k below the length of t; the registers above are unchanged (R246). -/
def State.setLowRegs (s : State) (t : List Byte) : State :=
  { s with v := Vector.ofFn (fun k : Fin 16 => (t[k.val]?).getD s.v[k]) }

/-- V0..Vx, inclusive (R245). -/
def State.lowRegs (s : State) (x : RegIdx) : List Byte := s.v.toList.take (x.val + 1)

/-- `I <- a` (R10). -/
def State.setI (s : State) (a : Word) : State := { s with i := a }

/-- `DT <- b` (R10). -/
def State.setDt (s : State) (b : Byte) : State := { s with dt := b }

/-- `ST <- b` (R10). -/
def State.setSt (s : State) (b : Byte) : State := { s with st := b }

/-- `AWAIT <- a` (R45). -/
def State.setAwait (s : State) (a : Option RegIdx) : State := { s with await := a }

/-! ### The program counter -/

/-- `pc <- a` (R10): no range or alignment check, no reduction (R35, R170). -/
def State.setPc (s : State) (a : Word) : State := { s with pc := a }

/-- The default advance `pc <- PC + 2`, in 16 bits (R146, R147). -/
def State.advance (s : State) : State := s.setPc (s.pc + 2)

/-- `if c then pc <- PC + 4 else pc <- PC + 2` (R146). -/
def State.skipIf (s : State) (c : Bool) : State := s.setPc (if c then s.pc + 4 else s.pc + 2)

/-! ### The stack -/

/-- `STACK[SP] <- a; SP <- SP + 1`, or none when SP = 16 (R37, R173). -/
def State.push (s : State) (a : Word) : Option State :=
  if h : s.sp.val < 16 then
    some { s with stack := s.stack.set s.sp.val a h, sp := ⟨s.sp.val + 1, by omega⟩ }
  else none

/-- `SP <- SP - 1`, with the slot SP then names, or none when SP = 0 (R37, R171). -/
def State.pop (s : State) : Option (State × Word) :=
  if h : 0 < s.sp.val then
    some ({ s with sp := ⟨s.sp.val - 1, by omega⟩ }, s.stack[s.sp.val - 1])
  else none

/-! ### Memory -/

/-- `MEM[a]` (R76), with no check. -/
def State.readByte (s : State) (a : Nat) : Byte := Memory.read s.params s.mem a

/-- `MEM[a] ++ MEM[a+1]`: two bytes, big-endian (R11, R73). -/
def State.readWord (s : State) (a : Nat) : Word := s.readByte a ++ s.readByte (a + 1)

/-- n bytes from address a up, each with the check of R76 (R74, R79). -/
def State.loadBytes (s : State) (a n : Nat) : Except FaultRecord (List Byte) :=
  match firstFault checkRead a n with
  | some f => .error f
  | none => .ok ((List.range n).map (fun j => s.readByte (a + j)))

/-- Bytes stored from address a up. Every address is checked before any byte is written (R77, R79). -/
def State.storeBytes (s : State) (a : Nat) (bs : List Byte) : Except FaultRecord State :=
  match firstFault (checkWrite s.params) a bs.length with
  | some f => .error f
  | none => .ok { s with mem := Memory.writeList s.params s.mem a bs }

/-- Fetch (R141): PC must be at most 0xFFE, and PC may be odd (R80). -/
def State.fetch (s : State) : Except FaultRecord Word :=
  if s.pc.toNat > 0xFFE then .error ⟨.fetchOutOfRange, s.pc.toNat⟩
  else .ok (s.readWord s.pc.toNat)

/-! ### The framebuffer -/

/-- `FB[px][py]` (R10, R40). -/
def Framebuffer.pixel (fb : Framebuffer) (px : Fin 64) (py : Fin 32) : Bool := fb[py][px]

/-- `FB[px][py] <- b` (R10, R40). -/
def Framebuffer.setPixel (fb : Framebuffer) (px : Fin 64) (py : Fin 32) (b : Bool) : Framebuffer :=
  fb.set py (fb[py].set px b)

/-- The grid with every pixel 0 (R270). -/
def Framebuffer.blank : Framebuffer := Vector.replicate 32 (Vector.replicate 64 false)

/-- The framebuffer written by an instruction, which also sets REDRAW (R41). -/
def State.present (s : State) (fb : Framebuffer) : State := { s with fb := fb, redraw := true }

/-! ### The timer stage -/

/-- A timer lowered by 1 when it is nonzero (R330). -/
def countDown (t : Byte) : Byte := if t.toNat > 0 then t - 1 else t

/-- `timer_step()` of R330: each timer on its own. -/
def State.timerStep (s : State) : State := { s with dt := countDown s.dt, st := countDown s.st }

end Sys2Proof.Machine
end

