-- ==== Sys2Proof/Machine/Operands.lean ====
section
/-! DEFINITION. The operand forms: immediate addresses, I-relative effective addresses, keys and the
cycle's inputs. Registers named by x and y are read by `State.reg`, kk and n are used as they are
(spec/30_encoding.md R102). -/

namespace Sys2Proof.Machine

/-- nnn as an address: "zero-extended to 16 bits when it is written to PC or I, or added to V[0]" (R102). -/
def target (nnn : BitVec 12) : Word := zext16 nnn

/-- The memory address calculator: the effective address of byte `off` of an I-relative access,
`ea = I + off` on naturals with no reduction (R75, R240). -/
def State.effAddr (s : State) (off : Nat) : Nat := s.i.toNat + off

/-- KEYS of the cycle in force: the snapshot of the host action being performed, and a free value where
no action is scripted (R42, D25, log 6). -/
def State.keys (s : State) : Keypad :=
  match s.script with
  | .cycle keys _ :: _ => keys
  | _ => Config.keysInput s.tick

/-- RAND of the cycle in force: the byte of the host action being performed, and a free value where no
action is scripted (R43, D24, log 6). -/
def State.rand (s : State) : Byte :=
  match s.script with
  | .cycle _ rand :: _ => rand
  | _ => Config.randInput s.tick

/-- V[x] as a key index: `Fault(KEY_INDEX_OUT_OF_RANGE, k)` when k > 0x0F (R290). -/
def State.keyIndex (s : State) (x : RegIdx) : Except FaultRecord (Fin 16) :=
  let k := (s.reg x).toNat
  if h : k > 0x0F then .error ⟨.keyIndexOutOfRange, k⟩ else .ok ⟨k, by omega⟩

/-- `min { k | KEYS[k] }`, or none when no key is pressed (R294). -/
def lowestKey (keys : Keypad) : Option (Fin 16) := (List.finRange 16).find? (fun k => keys[k])

/-- A key index as the byte that Fx0A writes (R294). -/
def keyByte (k : Fin 16) : Byte := trunc8 k.val

end Sys2Proof.Machine
end

