-- ==== Sys2Proof/Machine/Flags.lean ====
section
/-! DEFINITION. VF is the only flag (spec/10_state.md R48): every flag value an instruction computes, and
the write-back of a result with its flag (spec/42_alu.md R207). -/

namespace Sys2Proof.Machine

/-- A flag as the byte that VF holds: 1 or 0 (R48). -/
def flagByte (c : Bool) : Byte := if c then 1 else 0

/-- 8xy4: the carry, 1 when the exact sum exceeds 255 (R208). -/
def carryFlag (a b : Byte) : Byte := flagByte (decide (a.toNat + b.toNat > 255))

/-- 8xy5 and, with the operands exchanged, 8xy7: no-borrow, 1 when a > b, strictly (R209, R211). -/
def noBorrowFlag (a b : Byte) : Byte := flagByte (decide (a.toNat > b.toNat))

/-- 8xy6: bit 0 before the shift (R210). -/
def shiftRightFlag (a : Byte) : Byte := a &&& 0x01

/-- 8xyE: bit 7 before the shift (R212). -/
def shiftLeftFlag (a : Byte) : Byte := (a >>> 7) &&& 0x01

/-- Dxyn: the collision flag (R272). -/
def collisionFlag (coll : Bool) : Byte := flagByte coll

/-- What VF holds after a flag-writing ALU instruction whose destination is VF itself, by VF_DEST_POLICY.
Under `either` it is a draw from the result and the flag that the model does not fix (R207, D11, log 5). -/
def State.vfDestValue (s : State) (res flag : Byte) : Byte :=
  match s.params.vfDest with
  | .resultLast => res
  | .flagLast => flag
  | .either => if Config.vfDraw s.tick then res else flag

/-- `write_fr(x, res, flag)` of R207. -/
def State.writeFr (s : State) (x : RegIdx) (res flag : Byte) : State :=
  if x ≠ vf then (s.setReg x res).setReg vf flag
  else s.setReg vf (s.vfDestValue res flag)

end Sys2Proof.Machine
end

