-- ==== Sys2Proof/Machine/Alu.lean ====
section
/-! DEFINITION. Register loads and the 8-bit ALU (spec/42_alu.md). Operands are read before anything is
written (D12); results are exact on naturals and then reduced modulo 256 (R200). -/

namespace Sys2Proof.Machine

/-- The shape of an instruction that writes V[x], no flag, and advances (R201 to R206, R213). -/
def State.writeResult (s : State) (x : RegIdx) (b : Byte) : Result := .next (s.setReg x b).advance

/-- The shape of an instruction that writes V[x] and the flag VF, and advances (R207). -/
def State.writeFlagged (s : State) (x : RegIdx) (res flag : Byte) : Result :=
  .next (s.writeFr x res flag).advance

/-- `trunc8(a + b)` (R200). -/
def add8 (a b : Byte) : Byte := trunc8 (a.toNat + b.toNat)

/-- `(a - b + 256) mod 256` (R200). -/
def sub8 (a b : Byte) : Byte := trunc8 (a.toNat + 256 - b.toNat)

/-- 6xkk (R201). -/
def execLdImm (x : RegIdx) (kk : Byte) (s : State) : Result := s.writeResult x kk

/-- 7xkk (R202): no flag effect. -/
def execAddImm (x : RegIdx) (kk : Byte) (s : State) : Result := s.writeResult x (add8 (s.reg x) kk)

/-- 8xy0 (R203). -/
def execMov (x y : RegIdx) (s : State) : Result := s.writeResult x (s.reg y)

/-- 8xy1 (R204): VF is unchanged unless x = F (D10). -/
def execOr (x y : RegIdx) (s : State) : Result := s.writeResult x (s.reg x ||| s.reg y)

/-- 8xy2 (R205): VF is unchanged unless x = F (D10). -/
def execAnd (x y : RegIdx) (s : State) : Result := s.writeResult x (s.reg x &&& s.reg y)

/-- 8xy3 (R206): VF is unchanged unless x = F (D10). -/
def execXor (x y : RegIdx) (s : State) : Result := s.writeResult x (s.reg x ^^^ s.reg y)

/-- 8xy4 (R208). -/
def execAdd (x y : RegIdx) (s : State) : Result :=
  s.writeFlagged x (add8 (s.reg x) (s.reg y)) (carryFlag (s.reg x) (s.reg y))

/-- 8xy5 (R209). -/
def execSub (x y : RegIdx) (s : State) : Result :=
  s.writeFlagged x (sub8 (s.reg x) (s.reg y)) (noBorrowFlag (s.reg x) (s.reg y))

/-- 8xy6 (R210): the operand is V[x]; y is not read. -/
def execShr (x : RegIdx) (s : State) : Result :=
  s.writeFlagged x (s.reg x >>> 1) (shiftRightFlag (s.reg x))

/-- 8xy7 (R211). -/
def execSubn (x y : RegIdx) (s : State) : Result :=
  s.writeFlagged x (sub8 (s.reg y) (s.reg x)) (noBorrowFlag (s.reg y) (s.reg x))

/-- 8xyE (R212): the operand is V[x]; y is not read. -/
def execShl (x : RegIdx) (s : State) : Result :=
  s.writeFlagged x (s.reg x <<< 1) (shiftLeftFlag (s.reg x))

/-- Cxkk (R213): RAND is the random byte of the cycle (D24). -/
def execRnd (x : RegIdx) (kk : Byte) (s : State) : Result := s.writeResult x (s.rand &&& kk)

end Sys2Proof.Machine
end

