-- ==== Sys2Proof/Machine/ControlFlow.lean ====
section
/-! DEFINITION. Return, jump, call, skips and indexed jump (spec/41_control_flow.md). -/

namespace Sys2Proof.Machine

/-- 00EE (R171): STACK_UNDERFLOW when SP = 0. -/
def execRet (s : State) : Result :=
  match s.pop with
  | none => .next (s.raiseFault ⟨.stackUnderflow, s.pc.toNat⟩)
  | some (t, a) => .next (t.setPc a)

/-- 1nnn (R172). -/
def execJp (nnn : BitVec 12) (s : State) : Result := .next (s.setPc (target nnn))

/-- 2nnn (R173): the return address is PC + 2; STACK_OVERFLOW when SP = 16. -/
def execCall (nnn : BitVec 12) (s : State) : Result :=
  match s.push (s.pc + 2) with
  | none => .next (s.raiseFault ⟨.stackOverflow, s.pc.toNat⟩)
  | some t => .next (t.setPc (target nnn))

/-- 3xkk (R174). -/
def execSeImm (x : RegIdx) (kk : Byte) (s : State) : Result := .next (s.skipIf (s.reg x == kk))

/-- 4xkk (R175). -/
def execSneImm (x : RegIdx) (kk : Byte) (s : State) : Result := .next (s.skipIf (s.reg x != kk))

/-- 5xy0 (R176). -/
def execSeReg (x y : RegIdx) (s : State) : Result := .next (s.skipIf (s.reg x == s.reg y))

/-- 9xy0 (R177). -/
def execSneReg (x y : RegIdx) (s : State) : Result := .next (s.skipIf (s.reg x != s.reg y))

/-- Bnnn (R178): the sum is not reduced and the base is always V0. -/
def execJpV0 (nnn : BitVec 12) (s : State) : Result :=
  .next (s.setPc (target nnn + zext16 (s.reg 0)))

end Sys2Proof.Machine
end

