-- ==== Sys2Proof/Machine/Draw.lean ====
section
/-! DEFINITION. Framebuffer clear and the XOR sprite blitter (spec/44_draw.md), pixel by pixel in the
order of R272's pseudocode. -/

namespace Sys2Proof.Machine

/-- The bit of a row byte that lands in column Vx + b: bit index 0 is the most significant (R271). -/
def spriteBit (row : Byte) (b : Nat) : Bool := row.getLsbD (7 - b)

/-- The column of sprite bit b: `(cx + b) mod 64` (R272). -/
def pixelColumn (cx : Byte) (b : Nat) : Fin 64 := Fin.ofNat 64 (cx.toNat + b)

/-- The row of sprite row r: `(cy + r) mod 32` (R272). -/
def pixelRow (cy : Byte) (r : Nat) : Fin 32 := Fin.ofNat 32 (cy.toNat + r)

/-- One bit of the blit: the collision so far gains (sprite bit on and pixel on), and the pixel is XORed
(R272, R273). -/
def blitBit (cx cy : Byte) (r : Nat) (row : Byte) (acc : Framebuffer × Bool) (b : Nat) : Framebuffer × Bool :=
  let px := pixelColumn cx b
  let py := pixelRow cy r
  let on := Framebuffer.pixel acc.1 px py
  (Framebuffer.setPixel acc.1 px py (on ^^ spriteBit row b), acc.2 || (spriteBit row b && on))

/-- One row of the blit: `for b in 0..7` (R272). -/
def blitRow (cx cy : Byte) (r : Nat) (row : Byte) (acc : Framebuffer × Bool) : Framebuffer × Bool :=
  (List.range 8).foldl (blitBit cx cy r row) acc

/-- The rows of the blit from row r on: `for r in 0..n-1` (R272). -/
def blitRows (cx cy : Byte) : Nat → List Byte → Framebuffer × Bool → Framebuffer × Bool
  | _, [], acc => acc
  | r, row :: rows, acc => blitRows cx cy (r + 1) rows (blitRow cx cy r row acc)

/-- The whole blit: the new framebuffer and whether a pixel went from 1 to 0. The collision starts at 0 for
every Dxyn (R273). -/
def blit (cx cy : Byte) (rows : List Byte) (fb : Framebuffer) : Framebuffer × Bool :=
  blitRows cx cy 0 rows (fb, false)

/-- The effect of Dxyn once its rows are read: FB and REDRAW, then VF (R272). The coordinates come from
the registers as they were (D12). -/
def State.drawSprite (s : State) (x y : RegIdx) (rows : List Byte) : State :=
  let out := blit (s.reg x) (s.reg y) rows s.fb
  ((s.present out.1).setReg vf (collisionFlag out.2)).advance

/-- 00E0 (R270). -/
def execCls (s : State) : Result := .next (s.present Framebuffer.blank).advance

/-- Dxyn (R272): n bytes from MEM[I]; n = 0 reads nothing, clears VF and sets REDRAW. -/
def execDrw (x y : RegIdx) (n : Fin 16) (s : State) : Result :=
  s.commit ((s.loadBytes (s.effAddr 0) n.val).map (s.drawSprite x y))

end Sys2Proof.Machine
end

