-- ==== Sys2Proof/Machine/IndexMemory.lean ====
section
/-! DEFINITION. The index register and memory transfers (spec/43_index_memory.md). Fx33, Fx55 and Fx65
leave I unchanged (D10). -/

namespace Sys2Proof.Machine

/-- The decimal digits of a byte: hundreds, tens, ones (R244). -/
def bcdDigits (b : Byte) : List Byte :=
  [trunc8 (b.toNat / 100), trunc8 (b.toNat / 10 % 10), trunc8 (b.toNat % 10)]

/-- Annn (R241). -/
def execLdI (nnn : BitVec 12) (s : State) : Result := .next (s.setI (target nnn)).advance

/-- Fx1E (R242): modulo 65536, VF unchanged and no fault (D7). -/
def execAddIX (x : RegIdx) (s : State) : Result :=
  .next (s.setI (trunc16 (s.i.toNat + (s.reg x).toNat))).advance

/-- Fx29 (R243): V[x] is not reduced to a nibble. -/
def execLdFX (x : RegIdx) (s : State) : Result :=
  .next (s.setI (trunc16 ((s.reg x).toNat * 5))).advance

/-- Fx33 (R244). -/
def execBcd (x : RegIdx) (s : State) : Result :=
  s.commit ((s.storeBytes (s.effAddr 0) (bcdDigits (s.reg x))).map State.advance)

/-- Fx55 (R245). -/
def execStore (x : RegIdx) (s : State) : Result :=
  s.commit ((s.storeBytes (s.effAddr 0) (s.lowRegs x)).map State.advance)

/-- Fx65 (R246): every byte is read before any register is written. -/
def execLoad (x : RegIdx) (s : State) : Result :=
  s.commit ((s.loadBytes (s.effAddr 0) (x.val + 1)).map (fun t => (s.setLowRegs t).advance))

end Sys2Proof.Machine
end

