-- ==== Sys2Proof/Machine/KeypadTimer.lean ====
section
/-! DEFINITION. Keypad and timer instructions and the await step (spec/45_keypad_timer.md). -/

namespace Sys2Proof.Machine

/-- Ex9E (R291): KEY_INDEX_OUT_OF_RANGE when V[x] > 0x0F (R290). -/
def execSkp (x : RegIdx) (s : State) : Result :=
  s.commit ((s.keyIndex x).map (fun k => s.skipIf s.keys[k]))

/-- ExA1 (R292): KEY_INDEX_OUT_OF_RANGE when V[x] > 0x0F (R290). -/
def execSknp (x : RegIdx) (s : State) : Result :=
  s.commit ((s.keyIndex x).map (fun k => s.skipIf (!s.keys[k])))

/-- Fx07 (R293): DT before this cycle's decrement (R145). -/
def execLdXDt (x : RegIdx) (s : State) : Result := .next (s.setReg x s.dt).advance

/-- The wait of Fx0A in the cycle that fetches it (R294): the lowest pressed key is taken, or AWAIT is set
and nothing else changes. -/
def State.keyWait (s : State) (x : RegIdx) : State :=
  match lowestKey s.keys with
  | some k => (s.setReg x (keyByte k)).advance
  | none => s.setAwait (some x)

/-- Fx0A (R294). -/
def execLdXK (x : RegIdx) (s : State) : Result := .next (s.keyWait x)

/-- `await_step(x, KEYS)` of R295, which a cycle that starts with AWAIT = x runs in place of fetch, decode
and execute. -/
def State.awaitStep (s : State) (x : RegIdx) : State :=
  match lowestKey s.keys with
  | some k => ((s.setReg x (keyByte k)).advance).setAwait none
  | none => s

/-- Fx15 (R296). -/
def execLdDtX (x : RegIdx) (s : State) : Result := .next (s.setDt (s.reg x)).advance

/-- Fx18 (R297). -/
def execLdStX (x : RegIdx) (s : State) : Result := .next (s.setSt (s.reg x)).advance

end Sys2Proof.Machine
end

