-- ==== Sys2Proof/Machine/Cycle.lean ====
section
/-! DEFINITION. One cycle of the block (spec/40_cycle.md R140). -/

namespace Sys2Proof.Machine

/-- The end of a cycle: the timer stage, unless the cycle latched a fault (R144, R145, R330). -/
def State.endCycle (s : State) : State := if s.fault.isSome then s else s.timerStep

/-- Decode and execute a fetched word (R142, R143). -/
def State.runWord (s : State) (op : Word) : Result :=
  match decode op with
  | .error _ => .next (s.raiseFault ⟨.unknownOpcode, op.toNat⟩)
  | .ok ins => exec ins s

/-- Fetch, then decode and execute (R141 to R143). -/
def State.runNext (s : State) : Result :=
  match s.fetch with
  | .error f => .next (s.raiseFault f)
  | .ok op => s.runWord op

/-- `cycle(KEYS, RAND)` of R140, its inputs being `State.keys` and `State.rand`: a halted block does nothing
(R313), a waiting one runs the await step (R295), any other fetches, decodes and executes; the timer stage
follows. -/
def State.cycle (s : State) : Result :=
  if s.fault.isSome then .next s
  else match s.await with
    | some x => .next (s.awaitStep x).endCycle
    | none => match s.runNext with
      | .next t => .next t.endCycle
      | .fault r => .fault r
      | .refused r => .refused r

end Sys2Proof.Machine
end

