-- ==== Sys2Proof/Machine/HostPort.lean ====
section
/-! DEFINITION. The ports of the block (spec/60_exceptions.md R340 to R345): what the host's actions do, and
the outputs it reads. -/

namespace Sys2Proof.Machine

/-- The number of a fault code (R311). -/
def FaultCode.number : FaultCode → Nat
  | .fetchOutOfRange => 1
  | .unknownOpcode => 2
  | .stackOverflow => 3
  | .stackUnderflow => 4
  | .memOutOfRange => 5
  | .fontWrite => 6
  | .keyIndexOutOfRange => 7

/-- The code part of the output `fault`: 0 when no fault is latched (R311, R340). -/
def State.faultNumber (s : State) : Nat := (s.fault.map (fun f => f.code.number)).getD 0

/-- The output `sound_active`: ST ≠ 0 (R333). -/
def State.soundActive (s : State) : Bool := s.st != 0

/-- `init()` (R350, R353): all state of the block takes its reset value, the parameters stay. The host's
coming actions and the counter of free values are not the block's and stay too. -/
def State.hostInit (s : State) : State :=
  { State.resetWith s.params with script := s.script, tick := s.tick }

/-- `load(rom)` directly after `init` (R351): the bytes are copied to 0x200 and up, or the ROM is rejected
and the block unchanged. -/
def State.hostLoad (s : State) (rom : List Byte) : State :=
  if romFits rom then
    { s with mem := Memory.writeList s.params s.mem progBase rom, loadStatus := some .ok }
  else { s with loadStatus := some .rejected }

/-- `clear_redraw` (R341). -/
def State.hostClearRedraw (s : State) : State := { s with redraw := false }

/-- The bookkeeping after a host action: it is taken off the script, the counter of free values advances, and
`fresh` says whether the action was `init` (log 5, log 7, log 8). -/
def State.actionDone (s : State) (fresh : Bool) : State :=
  { s with script := s.script.tail, tick := s.tick + 1, freshInit := fresh }

/-- The next action of the host: the head of the script, and `cycle` with free inputs where nothing is
scripted (log 6, log 7). -/
def State.perform (s : State) : Result :=
  match s.script with
  | .init :: _ => .next (s.hostInit.actionDone true)
  | .load rom :: _ =>
    if s.freshInit then .next ((s.hostLoad rom).actionDone false) else .refused .loadOutsideContract
  | .clearRedraw :: _ => .next (s.hostClearRedraw.actionDone false)
  | _ => match s.cycle with
    | .next t => .next (t.actionDone false)
    | .fault r => .fault r
    | .refused r => .refused r

/-- Whether an action is a cycle. -/
def HostAction.isCycle : HostAction → Bool
  | .cycle _ _ => true
  | .init | .load _ | .clearRedraw => false

/-- The script from its next cycle on. -/
def State.scriptFromCycle (s : State) : List HostAction := s.script.dropWhile (fun a => !a.isCycle)

/-- Where the next fetch finds its word: PC, or 0x200 where PC is outside the fetch range (R141). -/
def State.fetchPoint (s : State) : Word := if s.pc.toNat ≤ 0xFFE then s.pc else 0x200

/-- The state with a word placed where the next step fetches, ready to run it: not halted, not waiting, and
with a cycle as the host's next action (log 8). -/
def State.placeWord (s : State) (op : Word) : State :=
  { s with
    pc := s.fetchPoint
    mem := Memory.writeList s.params s.mem s.fetchPoint.toNat (wordBytes op)
    await := none
    fault := none
    script := s.scriptFromCycle }

end Sys2Proof.Machine
end

