-- ==== Sys2Proof/Machine/Step.lean ====
section
/-! DEFINITION. One step of the machine, and the placing of a word for it to run. -/

namespace Sys2Proof.Machine

/-- One step: the host's next action between cycles (spec/60_exceptions.md R345), which is one whole
cycle of the block (spec/40_cycle.md R140) unless the script says otherwise. -/
def step (s : State) : Host.Outcome State Fault Refusal := s.perform

/-- The word w of an opcode-table row stored where `step` fetches its next instruction. It stands for the
host's `load` of that word (log 8). -/
def State.withFetchWord (s : State) (nbits w : Nat) : State := s.placeWord (tableWord nbits w)

end Sys2Proof.Machine
end

