-- ==== Sys2Proof/Safety.lean ====
section
/-! DEFINITION. What a safe run is, which accesses pass, and what a step may leave unchanged, in the terms the
statements use. -/

namespace Sys2Proof.Machine

/-! ### Kinds of step and of run -/

/-- The block is halted: a fault is latched (R313). A faulted state is never a good end (R150). -/
def State.halted (s : State) : Prop := s.fault ≠ none

/-- The host's next action is a cycle: scripted, or free where nothing is scripted (log 7). -/
def State.atCycle (s : State) : Prop := ∀ a, s.script.head? = some a → a.isCycle = true

/-- The next step fetches at PC: the host's next action is a cycle, and the block is neither halted nor
waiting for a key (R140, R314). -/
def State.ready (s : State) : Prop := s.atCycle ∧ s.fault = none ∧ s.await = none

/-- The instruction that the next cycle executes is i (R141 to R143). -/
def State.fetches (s : State) (i : Instr) : Prop :=
  s.await = none ∧ s.pc.toNat ≤ 0xFFE ∧ decode (s.readWord s.pc.toNat) = .ok i

/-- A safe run: k steps from s to t, no state on the way halted, and each state a step leaves meeting P. -/
def SafeRun (P : State → Prop) : Nat → State → State → Prop
  | 0, s, t => s = t ∧ ¬ s.halted
  | k + 1, s, t => ¬ s.halted ∧ P s ∧ ∃ u, step s = .next u ∧ SafeRun P k u t

/-! ### Invariants -/

/-- The invariant of the machine: memory is in its canonical form; PC is within the largest value a write can
produce (R35) and every return address within PC + 2 of the last fetchable word (R147, R171); a waiting block
is not halted and its PC still addresses the Fx0A that waits (R294, R295); and right after `init` nothing
waits. -/
structure State.Inv (s : State) : Prop where
  mem_wf      : Memory.wf s.params s.mem
  pc_le       : s.pc.toNat ≤ 0x10FE
  stack_le    : ∀ j : Fin 16, (s.stack[j]).toNat ≤ 0x1000
  await_fault : s.await = none ∨ s.fault = none
  await_fetch : ∀ x, s.await = some x → s.pc.toNat ≤ 0xFFE ∧ decode (s.readWord s.pc.toNat) = .ok (.ldXK x)
  fresh_idle  : s.freshInit = true → s.await = none

/-- The font region holds FONT (R51: "font region is never overwritten by program execution"). -/
def State.fontIntact (s : State) : Prop :=
  ∀ (a : Nat) (h : a < fontLen), s.readByte a = s.params.font[a]

/-- Every value `init` sets (R49, R350): the whole state of the block. -/
structure InitialValues (s : State) : Prop where
  v      : ∀ r, s.reg r = 0
  i      : s.i = 0
  pc     : s.pc = 0x200
  sp     : s.sp = 0
  stack  : ∀ j : Fin 16, s.stack[j] = 0
  dt     : s.dt = 0
  st     : s.st = 0
  fb     : ∀ px py, Framebuffer.pixel s.fb px py = false
  redraw : s.redraw = false
  font   : s.fontIntact
  mem    : ∀ a, fontLen ≤ a → s.readByte a = 0
  await  : s.await = none
  fault  : s.fault = none

/-! ### Accesses that pass -/

/-- The byte at offset `off` from I can be read (R76). -/
def State.readable (s : State) (off : Nat) : Prop := s.effAddr off ≤ 0xFFF

/-- The byte at offset `off` from I can be written (R77). -/
def State.writable (s : State) (off : Nat) : Prop :=
  s.effAddr off ≤ 0xFFF ∧ (s.effAddr off ≤ 0x04F → s.params.fontWrite = .allow)

/-! ### The sprite of Dxyn -/

/-- The pixel (px, py) meets a sprite bit of 1: some row r and bit b of the n-row sprite at I land on it, and
that bit is on (R271, R272). -/
def State.spriteOn (s : State) (x y : RegIdx) (n : Nat) (px : Fin 64) (py : Fin 32) : Prop :=
  ∃ r b, r < n ∧ b < 8 ∧ px.val = ((s.reg x).toNat + b) % 64 ∧ py.val = ((s.reg y).toNat + r) % 32 ∧
    (s.readByte (s.effAddr r)).getLsbD (7 - b) = true

/-! ### Frames: what t keeps of s -/

/-- Every byte of memory reads as before. -/
def SameBytes (s t : State) : Prop := ∀ a, t.readByte a = s.readByte a

/-- Every byte of memory outside the n bytes from address a up reads as before. -/
def SameBytesOutside (a n : Nat) (s t : State) : Prop :=
  ∀ b, b < a ∨ a + n ≤ b → t.readByte b = s.readByte b

/-- Every general register but x holds what it held. -/
def SameRegsBut (x : RegIdx) (s t : State) : Prop := ∀ r, r ≠ x → t.reg r = s.reg r

/-- Only PC may differ: the frame of a jump or a skip. -/
def OnlyPc (s t : State) : Prop := t = { s with pc := t.pc } ∧ SameBytes s t

/-- Only general registers and PC may differ: the frame of a register instruction. -/
def OnlyRegs (s t : State) : Prop := t = { s with v := t.v, pc := t.pc } ∧ SameBytes s t

/-- Only I and PC may differ. -/
def OnlyIndex (s t : State) : Prop := t = { s with i := t.i, pc := t.pc } ∧ SameBytes s t

/-- Only SP, STACK and PC may differ. -/
def OnlyStack (s t : State) : Prop :=
  t = { s with sp := t.sp, stack := t.stack, pc := t.pc } ∧ SameBytes s t

/-- Only FB, REDRAW, VF and PC may differ: the frame of Dxyn. -/
def OnlyDraw (s t : State) : Prop :=
  t = { s with fb := t.fb, redraw := t.redraw, v := t.v, pc := t.pc } ∧ SameRegsBut vf s t ∧ SameBytes s t

/-- Only memory and PC may differ, and of memory only the n bytes from offset 0 of I up: the frame of a
store. -/
def OnlyStored (n : Nat) (s t : State) : Prop :=
  t = { s with mem := t.mem, pc := t.pc } ∧ SameBytesOutside (s.effAddr 0) n s t

/-- What a flag-writing ALU instruction with destination x leaves: the result in V[x] and the flag in VF, or,
where V[x] is VF, what VF_DEST_POLICY says; every other register as before; PC advanced (R207, R146). -/
def FlaggedResult (s t : State) (x : RegIdx) (res flag : Nat) : Prop :=
  (x ≠ vf → (t.reg x).toNat = res ∧ (t.reg vf).toNat = flag) ∧
  (x = vf → s.params.vfDest = .resultLast → (t.reg vf).toNat = res) ∧
  (x = vf → s.params.vfDest = .flagLast → (t.reg vf).toNat = flag) ∧
  (x = vf → s.params.vfDest = .either → (t.reg vf).toNat = res ∨ (t.reg vf).toNat = flag) ∧
  (∀ r, r ≠ x → r ≠ vf → t.reg r = s.reg r) ∧ OnlyRegs s t ∧ t.pc = s.pc + 2

/-! ### Who may write what -/

/-- The instructions that can write general register r (R32, R31). -/
def mayWriteReg (i : Instr) (r : RegIdx) : Prop :=
  match i with
  | .ldImm x _ | .addImm x _ | .mov x _ | .or x _ | .and x _ | .xor x _ | .rnd x _ | .ldXDt x | .ldXK x => r = x
  | .add x _ | .sub x _ | .shr x _ | .subn x _ | .shl x _ => r = x ∨ r = vf
  | .drw _ _ _ => r = vf
  | .load x => r ≤ x
  | .cls | .ret | .jp _ | .call _ | .seImm _ _ | .sneImm _ _ | .seReg _ _ | .sneReg _ _ | .ldI _ | .jpV0 _
  | .skp _ | .sknp _ | .ldDtX _ | .ldStX _ | .addIX _ | .ldFX _ | .bcd _ | .store _ => False

/-- The instructions that can fault once decoded (R312). -/
def mayFault (i : Instr) : Prop :=
  match i with
  | .ret | .call _ | .drw _ _ _ | .bcd _ | .store _ | .load _ | .skp _ | .sknp _ => True
  | .cls | .jp _ | .seImm _ _ | .sneImm _ _ | .seReg _ _ | .ldImm _ _ | .addImm _ _ | .mov _ _ | .or _ _ | .and _ _
  | .xor _ _ | .add _ _ | .sub _ _ | .shr _ _ | .subn _ _ | .shl _ _ | .sneReg _ _ | .ldI _ | .jpV0 _ | .rnd _ _
  | .ldXDt _ | .ldXK _ | .ldDtX _ | .ldStX _ | .addIX _ | .ldFX _ => False

/-- The instructions that read KEYS or RAND (R42, R43). -/
def readsInput (i : Instr) : Prop :=
  match i with
  | .skp _ | .sknp _ | .ldXK _ | .rnd _ _ => True
  | .cls | .ret | .jp _ | .call _ | .seImm _ _ | .sneImm _ _ | .seReg _ _ | .ldImm _ _ | .addImm _ _ | .mov _ _
  | .or _ _ | .and _ _ | .xor _ _ | .add _ _ | .sub _ _ | .shr _ _ | .subn _ _ | .shl _ _ | .sneReg _ _ | .ldI _
  | .jpV0 _ | .drw _ _ _ | .ldXDt _ | .ldDtX _ | .ldStX _ | .addIX _ | .ldFX _ | .bcd _ | .store _ | .load _ => False

end Sys2Proof.Machine
end

