-- ==== Sys2Proof/Certificates/Slice0/Obligations.lean ====
section
/-! DEFINITION. The statements for the provers: what the rules of the spec say the machine does. -/

open Sys2Proof Sys2Proof.Machine

/-! ## Encoding -/

/-- Fifteen words written out from the spec decode as 95_test_vectors.md says in its example E4 and its table of
section 2.1. -/
def Obligations.SpecWordsDecode : Prop :=
  decode 0x00E0 = .ok .cls ∧ decode 0x00EE = .ok .ret ∧ decode 0x5120 = .ok (.seReg 1 2) ∧
  decode 0x6A3C = .ok (.ldImm 0xA 0x3C) ∧ decode 0x8ABE = .ok (.shl 0xA 0xB) ∧
  decode 0x8AB6 = .ok (.shr 0xA 0xB) ∧ decode 0x9120 = .ok (.sneReg 1 2) ∧
  decode 0xD12F = .ok (.drw 1 2 0xF) ∧ decode 0xE19E = .ok (.skp 1) ∧ decode 0xF129 = .ok (.ldFX 1) ∧
  decode 0xFF65 = .ok (.load 0xF) ∧ decode 0x0000 = .error (.unknownOpcode 0x0000) ∧
  decode 0x5121 = .error (.unknownOpcode 0x5121) ∧ decode 0x8AB8 = .error (.unknownOpcode 0x8AB8) ∧
  decode 0xF130 = .error (.unknownOpcode 0xF130)

/-- Decoding an encoded instruction gives it back, from its word (R105) and from its bytes as they lie in
memory, the more significant first (R73), with whatever bytes follow left over. -/
def Obligations.DecodeInvertsEncode : Prop :=
  ∀ (i : Instr) (rest : List Byte),
    decode (encode i) = .ok i ∧ decodeBytes (wordBytes (encode i) ++ rest) = .ok (i, rest)

/-- A word that decodes is the encoding of what it decodes to: each legal word has one meaning and no bit of it
is dropped. -/
def Obligations.EncodeInvertsDecode : Prop :=
  ∀ (op : Word) (i : Instr), decode op = .ok i → encode i = op

/-- A word with the fixed bits of some instruction's row of opcode_table.json decodes to an instruction of
that very row: no two rows overlap. -/
def Obligations.RowWordsDecodeToTheirRow : Prop :=
  ∀ (op : Word) (i : Instr), op &&& (opcodeRow i).mask = (opcodeRow i).pattern →
    ∃ j, decode op = .ok j ∧ opcodeRow j = opcodeRow i

/-- The decoder takes exactly the legal words, and gives the verdict unknown, naming the word, for those of the
six illegal classes (R105, R106; that 5xyn and 9xyn with n ≠ 0 are illegal is the spec's decision D28). -/
def Obligations.DecoderTakesExactlyLegalWords : Prop :=
  ∀ op : Word, ((∃ i, decode op = .ok i) ↔ legalWord op = true) ∧
    (legalWord op = false → decode op = .error (.unknownOpcode op))

/-! ## The cycle -/

/-- When the next step fetches and the word at PC decodes to i, the step is exec of i, then the timer stage
unless i faulted, then the host bookkeeping (R140, R145; the bookkeeping is the model's, log 5, log 7, log 8). -/
def Obligations.StepRunsDecodedInstruction : Prop :=
  ∀ (s t : State) (i : Instr), s.ready → s.fetches i → exec i s = .next t →
    (t.fault = none →
      step s = .next ({ t with dt := countDown t.dt, st := countDown t.st }.actionDone false)) ∧
    (t.fault ≠ none → step s = .next (t.actionDone false))

/-- Every instruction answers a next state from every state: no instruction stops the machine (log 1). -/
def Obligations.EveryInstructionAnswersNext : Prop :=
  ∀ (i : Instr) (s : State), ∃ t, exec i s = .next t

/-- A fetch from above 0xFFE latches FETCH_OUT_OF_RANGE with PC and changes nothing else (R141; the latch and the
rollback are the spec's decisions D16 and D17, the bookkeeping is the model's, log 5, log 7, log 8). -/
def Obligations.FetchOutOfRangeLatches : Prop :=
  ∀ s : State, s.ready → 0xFFE < s.pc.toNat →
    step s = .next ({ s with fault := some ⟨.fetchOutOfRange, s.pc.toNat⟩ }.actionDone false)

/-- An illegal word latches UNKNOWN_OPCODE with the word and changes nothing else (R142; the latch and the
rollback are the spec's decisions D16 and D17, 5xyn and 9xyn its decision D28, and the bookkeeping is the model's,
log 5, log 7, log 8). -/
def Obligations.IllegalWordLatches : Prop :=
  ∀ s : State, s.ready → s.pc.toNat ≤ 0xFFE → legalWord (s.readWord s.pc.toNat) = false →
    step s = .next
      ({ s with fault := some ⟨.unknownOpcode, (s.readWord s.pc.toNat).toNat⟩ }.actionDone false)

/-- A cycle of a halted block changes no state of the block (R313, the spec's decision D16; the bookkeeping is
the model's, log 5, log 7, log 8). -/
def Obligations.HaltedCycleChangesNothing : Prop :=
  ∀ s : State, s.atCycle → s.halted → step s = .next (s.actionDone false)

/-- Only `init` takes a block out of a latched fault: any other step leaves the latch as it is (R313, R353, the
spec's decision D16; that the host's action stands at the head of the script is the model's, log 7). -/
def Obligations.OnlyInitClearsFault : Prop :=
  ∀ (s t : State), s.halted → step s = .next t → s.script.head? ≠ some .init → t.fault = s.fault

/-- At the end of every committed cycle each timer stands one lower than the value the cycle left, and at 0 if that
was 0. That value is the one before the cycle for every instruction and for a waiting cycle, and V[x] for Fx15 (DT) and
Fx18 (ST). A cycle that faults leaves both (R330, R145; waiting cycles follow the spec's conflict choice C5 and decision
D15, faulting ones its decision D17, and what is a cycle in the script is the model's, log 7). -/
def Obligations.CyclesCountTimersDown : Prop :=
  ∀ s t : State, s.atCycle → s.fault = none → step s = .next t →
    (t.fault ≠ none → t.dt = s.dt ∧ t.st = s.st) ∧
    (t.fault = none →
      ((∀ x, ¬ s.fetches (.ldDtX x)) → t.dt.toNat = s.dt.toNat - 1) ∧
      (∀ x, s.fetches (.ldDtX x) → t.dt.toNat = (s.reg x).toNat - 1) ∧
      ((∀ x, ¬ s.fetches (.ldStX x)) → t.st.toNat = s.st.toNat - 1) ∧
      (∀ x, s.fetches (.ldStX x) → t.st.toNat = (s.reg x).toNat - 1))

/-- A cycle that latches a fault changes nothing but the latch: no register, memory, stack, framebuffer, REDRAW
or PC write and no timer decrement (R144, the spec's decision D17; the bookkeeping is the model's, log 5, log 7,
log 8). -/
def Obligations.FaultsArePrecise : Prop :=
  ∀ (s t : State), s.atCycle → s.fault = none → step s = .next t → t.fault ≠ none →
    t = ({ s with fault := t.fault }.actionDone false)

/-- Once decoded, only 00EE, 2nnn, Dxyn, Fx33, Fx55, Fx65, Ex9E and ExA1 can fault (R312, which the spec derives
from R311). -/
def Obligations.OnlyListedInstructionsFault : Prop :=
  ∀ (i : Instr) (s t : State), exec i s = .next t → t.fault ≠ s.fault → mayFault i

/-- A waiting block with a key pressed takes the lowest one, advances and stops waiting; with none it changes
nothing; the timers count down either way (R295, which the spec derives; the form of the wait and the running
timers are its decision D15, the bookkeeping is the model's, log 5, log 7, log 8). -/
def Obligations.AwaitStepTakesLowestKey : Prop :=
  ∀ (s : State) (x : RegIdx), s.atCycle → s.fault = none → s.await = some x →
    (∀ k : Fin 16, s.keys[k] = true → (∀ j < k, s.keys[j] = false) →
      ∃ t, step s = .next t ∧ (t.reg x).toNat = k.val ∧ t.pc = s.pc + 2 ∧ t.await = none ∧
        SameRegsBut x s t ∧
        t = { s with
          v := t.v, pc := t.pc, await := none, dt := countDown s.dt, st := countDown s.st }.actionDone false) ∧
    ((∀ k : Fin 16, s.keys[k] = false) →
      step s = .next ({ s with dt := countDown s.dt, st := countDown s.st }.actionDone false))

/-- "The result is the same as refetching and re-executing the Fx0A at PC each cycle" (R295, which the spec
derives), in every state that meets the invariant. -/
def Obligations.AwaitStepIsReexecution : Prop :=
  ∀ s : State, s.Inv → s.await ≠ none → s.cycle = { s with await := none }.cycle

/-! ## Control flow -/

/-- 00EE pops the address 2nnn pushed, or latches STACK_UNDERFLOW when SP = 0 (R171; the stack convention is the
spec's decision D3, the latch D16 and D17). -/
def Obligations.ReturnPopsTheStack : Prop :=
  ∀ s : State,
    (0 < s.sp.val → ∃ t, exec .ret s = .next t ∧ t.sp.val + 1 = s.sp.val ∧
      some t.pc = s.stack[t.sp.val]? ∧ t.stack = s.stack ∧ OnlyStack s t) ∧
    (s.sp.val = 0 → exec .ret s = .next { s with fault := some ⟨.stackUnderflow, s.pc.toNat⟩ })

/-- 2nnn pushes PC + 2 and jumps, or latches STACK_OVERFLOW when SP = 16 (R173; the stack convention is the
spec's decision D3, the latch D16 and D17). -/
def Obligations.CallPushesReturnAddress : Prop :=
  ∀ (s : State) (nnn : BitVec 12),
    (s.sp.val < 16 → ∃ t, exec (.call nnn) s = .next t ∧ t.sp.val = s.sp.val + 1 ∧
      t.stack[s.sp.val]? = some (s.pc + 2) ∧
      (∀ j : Fin 16, j.val ≠ s.sp.val → t.stack[j] = s.stack[j]) ∧ t.pc.toNat = nnn.toNat ∧ OnlyStack s t) ∧
    (s.sp.val = 16 → exec (.call nnn) s = .next { s with fault := some ⟨.stackOverflow, s.pc.toNat⟩ })

/-- A call, then a return from any state that has SP and the pushed slot as the call left them, continues
after the call with SP restored (R179, which the spec derives from R171 and R173). -/
def Obligations.CallReturnRoundTrip : Prop :=
  ∀ (s u : State) (nnn : BitVec 12), s.sp.val < 16 →
    ∃ t, exec (.call nnn) s = .next t ∧
      (u.sp = t.sp → u.stack[s.sp.val]? = t.stack[s.sp.val]? →
        ∃ w, exec .ret u = .next w ∧ w.pc = s.pc + 2 ∧ w.sp = s.sp)

/-- 1nnn sets PC to nnn, and Bnnn sets it to nnn + V0, not reduced: at most 0x10FE. -/
def Obligations.JumpsSetPc : Prop :=
  ∀ (s : State) (nnn : BitVec 12),
    (∃ t, exec (.jp nnn) s = .next t ∧ t.pc.toNat = nnn.toNat ∧ OnlyPc s t) ∧
    (∃ t, exec (.jpV0 nnn) s = .next t ∧ t.pc.toNat = nnn.toNat + (s.reg 0).toNat ∧ t.pc.toNat ≤ 0x10FE ∧
      OnlyPc s t)

/-- 3xkk and 4xkk move PC by 4 when V[x] equals, or differs from, kk, and by 2 otherwise. -/
def Obligations.ImmediateSkips : Prop :=
  ∀ (s : State) (x : RegIdx) (kk : Byte),
    (∃ t, exec (.seImm x kk) s = .next t ∧ t.pc = (if s.reg x = kk then s.pc + 4 else s.pc + 2) ∧ OnlyPc s t) ∧
    (∃ t, exec (.sneImm x kk) s = .next t ∧ t.pc = (if s.reg x = kk then s.pc + 2 else s.pc + 4) ∧ OnlyPc s t)

/-- 5xy0 and 9xy0 move PC by 4 when V[x] equals, or differs from, V[y], and by 2 otherwise. -/
def Obligations.RegisterSkips : Prop :=
  ∀ (s : State) (x y : RegIdx),
    (∃ t, exec (.seReg x y) s = .next t ∧ t.pc = (if s.reg x = s.reg y then s.pc + 4 else s.pc + 2) ∧
      OnlyPc s t) ∧
    (∃ t, exec (.sneReg x y) s = .next t ∧ t.pc = (if s.reg x = s.reg y then s.pc + 2 else s.pc + 4) ∧
      OnlyPc s t)

/-! ## Loads and the ALU -/

/-- 6xkk, 7xkk and 8xy0 write kk, (V[x] + kk) mod 256 and V[y] to V[x], and no other register, VF among
them. -/
def Obligations.LoadAddMoveWriteRegister : Prop :=
  ∀ (s : State) (x y : RegIdx) (kk : Byte),
    (∃ t, exec (.ldImm x kk) s = .next t ∧ t.reg x = kk ∧ SameRegsBut x s t ∧ OnlyRegs s t ∧ t.pc = s.pc + 2) ∧
    (∃ t, exec (.addImm x kk) s = .next t ∧ (t.reg x).toNat = ((s.reg x).toNat + kk.toNat) % 256 ∧
      SameRegsBut x s t ∧ OnlyRegs s t ∧ t.pc = s.pc + 2) ∧
    (∃ t, exec (.mov x y) s = .next t ∧ t.reg x = s.reg y ∧ SameRegsBut x s t ∧ OnlyRegs s t ∧
      t.pc = s.pc + 2)

/-- 8xy1, 8xy2 and 8xy3 write the bitwise OR, AND and XOR of V[x] and V[y] to V[x] and leave VF alone unless x is
F (R204 to R206; that VF is left alone is the spec's decision D10). -/
def Obligations.BitwiseOperations : Prop :=
  ∀ (s : State) (x y : RegIdx),
    (∃ t, exec (.or x y) s = .next t ∧
      (∀ k, (t.reg x).getLsbD k = ((s.reg x).getLsbD k || (s.reg y).getLsbD k)) ∧
      SameRegsBut x s t ∧ OnlyRegs s t ∧ t.pc = s.pc + 2) ∧
    (∃ t, exec (.and x y) s = .next t ∧
      (∀ k, (t.reg x).getLsbD k = ((s.reg x).getLsbD k && (s.reg y).getLsbD k)) ∧
      SameRegsBut x s t ∧ OnlyRegs s t ∧ t.pc = s.pc + 2) ∧
    (∃ t, exec (.xor x y) s = .next t ∧
      (∀ k, (t.reg x).getLsbD k = ((s.reg x).getLsbD k ^^ (s.reg y).getLsbD k)) ∧
      SameRegsBut x s t ∧ OnlyRegs s t ∧ t.pc = s.pc + 2)

/-- 8xy4 writes the sum modulo 256 and the carry; with x = F, VF_DEST_POLICY settles VF (R208; the policy is the spec's
decision D11). -/
def Obligations.AddWritesSumAndCarry : Prop :=
  ∀ (s : State) (x y : RegIdx), ∃ t, exec (.add x y) s = .next t ∧
    FlaggedResult s t x (((s.reg x).toNat + (s.reg y).toNat) % 256)
      (if (s.reg x).toNat + (s.reg y).toNat > 255 then 1 else 0)

/-- 8xy5 and 8xy7 write the difference modulo 256 and the strict no-borrow flag; with x = F, VF_DEST_POLICY
settles VF (R209, R211; the policy is the spec's decision D11). -/
def Obligations.SubtractWritesDifferenceAndNoBorrow : Prop :=
  ∀ (s : State) (x y : RegIdx),
    (∃ t, exec (.sub x y) s = .next t ∧
      FlaggedResult s t x (((s.reg x).toNat + 256 - (s.reg y).toNat) % 256)
        (if (s.reg x).toNat > (s.reg y).toNat then 1 else 0)) ∧
    (∃ t, exec (.subn x y) s = .next t ∧
      FlaggedResult s t x (((s.reg y).toNat + 256 - (s.reg x).toNat) % 256)
        (if (s.reg y).toNat > (s.reg x).toNat then 1 else 0))

/-- 8xy6 and 8xyE halve and double V[x] and write the bit shifted out, whatever y is; with x = F, VF_DEST_POLICY
settles VF (R210, R212; the policy is the spec's decision D11). -/
def Obligations.ShiftsWriteResultAndBitOut : Prop :=
  ∀ (s : State) (x y : RegIdx),
    (∃ t, exec (.shr x y) s = .next t ∧
      FlaggedResult s t x ((s.reg x).toNat / 2) ((s.reg x).toNat % 2)) ∧
    (∃ t, exec (.shl x y) s = .next t ∧
      FlaggedResult s t x (2 * (s.reg x).toNat % 256) ((s.reg x).toNat / 128))

/-- Cxkk writes RAND AND kk to V[x], RAND being the cycle's random byte (R213; that RAND is a free input of each
cycle is the spec's decision D24, and the model's log 6). -/
def Obligations.RandomAndImmediate : Prop :=
  ∀ (s : State) (x : RegIdx) (kk : Byte), ∃ t, exec (.rnd x kk) s = .next t ∧
    (∀ k, (t.reg x).getLsbD k = (s.rand.getLsbD k && kk.getLsbD k)) ∧
    SameRegsBut x s t ∧ OnlyRegs s t ∧ t.pc = s.pc + 2

/-- KEYS and RAND of a cycle are what the host's action supplies (R42, R43; that the action stands at the head of
the script is the model's, log 6, log 7). -/
def Obligations.InputsComeFromTheHostAction : Prop :=
  ∀ (s : State) (keys : Keypad) (rand : Byte) (rest : List HostAction),
    s.script = .cycle keys rand :: rest → s.keys = keys ∧ s.rand = rand

/-! ## Index register and memory -/

/-- Annn and Fx29 set I to nnn and to V[x] × 5, with no range check and V[x] not reduced. -/
def Obligations.IndexLoads : Prop :=
  ∀ (s : State) (x : RegIdx) (nnn : BitVec 12),
    (∃ t, exec (.ldI nnn) s = .next t ∧ t.i.toNat = nnn.toNat ∧ OnlyIndex s t ∧ t.pc = s.pc + 2) ∧
    (∃ t, exec (.ldFX x) s = .next t ∧ t.i.toNat = (s.reg x).toNat * 5 ∧ OnlyIndex s t ∧ t.pc = s.pc + 2)

/-- Fx1E adds V[x] to I modulo 65536, leaves VF alone and never faults (R242; the last two are the spec's
decision D7). -/
def Obligations.AddToIndexWraps : Prop :=
  ∀ (s : State) (x : RegIdx), ∃ t, exec (.addIX x) s = .next t ∧
    t.i.toNat = (s.i.toNat + (s.reg x).toNat) % 65536 ∧ OnlyIndex s t ∧ t.pc = s.pc + 2

/-- Fx33 stores the three decimal digits of V[x] at I, I+1 and I+2 and nothing else, where all three bytes can be
written (R244; that I is unchanged is the spec's decision D10). -/
def Obligations.BcdStoresDecimalDigits : Prop :=
  ∀ (s : State) (x : RegIdx), (∀ j < 3, s.writable j) →
    ∃ t, exec (.bcd x) s = .next t ∧
      (t.readByte (s.effAddr 0)).toNat = (s.reg x).toNat / 100 ∧
      (t.readByte (s.effAddr 1)).toNat = (s.reg x).toNat / 10 % 10 ∧
      (t.readByte (s.effAddr 2)).toNat = (s.reg x).toNat % 10 ∧ OnlyStored 3 s t ∧ t.pc = s.pc + 2

/-- Fx55 stores V0..Vx at I..I+x and nothing else, where all the bytes can be written (R245; that I is unchanged
is the spec's decision D10). -/
def Obligations.StoreWritesRegisters : Prop :=
  ∀ (s : State) (x : RegIdx), (∀ j ≤ x.val, s.writable j) →
    ∃ t, exec (.store x) s = .next t ∧ (∀ r ≤ x, t.readByte (s.effAddr r.val) = s.reg r) ∧
      OnlyStored (x.val + 1) s t ∧ t.pc = s.pc + 2

/-- Fx65 loads V0..Vx from I..I+x and changes no register above x, where all the bytes can be read (R246; that I is
unchanged is the spec's decision D10). -/
def Obligations.LoadReadsRegisters : Prop :=
  ∀ (s : State) (x : RegIdx), (∀ j ≤ x.val, s.readable j) →
    ∃ t, exec (.load x) s = .next t ∧ (∀ r ≤ x, t.reg r = s.readByte (s.effAddr r.val)) ∧
      (∀ r, x < r → t.reg r = s.reg r) ∧ OnlyRegs s t ∧ t.pc = s.pc + 2

/-- Fx65 and Dxyn whose byte at offset j is the first out of range latch MEM_OUT_OF_RANGE with its address and
change nothing else (R76, R272; the order and the rollback are the spec's decisions D13 and D17). -/
def Obligations.ReadsReportFirstFailingByte : Prop :=
  ∀ (s : State) (x y : RegIdx) (n : Fin 16) (j : Nat), ¬ s.readable j → (∀ k < j, s.readable k) →
    (j ≤ x.val →
      exec (.load x) s = .next { s with fault := some ⟨.memOutOfRange, s.effAddr j⟩ }) ∧
    (j < n.val →
      exec (.drw x y n) s = .next { s with fault := some ⟨.memOutOfRange, s.effAddr j⟩ })

/-- Fx33 and Fx55 whose byte at offset j is the first that cannot be written latch MEM_OUT_OF_RANGE or FONT_WRITE
with its address and change nothing else (R77; the order, the rollback and the font fault are the spec's decisions
D13, D17 and D8). -/
def Obligations.WritesReportFirstFailingByte : Prop :=
  ∀ (s : State) (x : RegIdx) (j : Nat), (∀ k < j, s.writable k) →
    (0xFFF < s.effAddr j →
      (j < 3 → exec (.bcd x) s = .next { s with fault := some ⟨.memOutOfRange, s.effAddr j⟩ }) ∧
      (j ≤ x.val → exec (.store x) s = .next { s with fault := some ⟨.memOutOfRange, s.effAddr j⟩ })) ∧
    (s.effAddr j ≤ 0x04F → s.params.fontWrite = .fault →
      (j < 3 → exec (.bcd x) s = .next { s with fault := some ⟨.fontWrite, s.effAddr j⟩ }) ∧
      (j ≤ x.val → exec (.store x) s = .next { s with fault := some ⟨.fontWrite, s.effAddr j⟩ }))

/-- Fx55, then Fx65 with the same x from any state that has the same I and the stored bytes, gives V0..Vx the
values they had (R247, which the spec derives from R245 and R246). -/
def Obligations.StoreLoadRoundTrip : Prop :=
  ∀ (s u : State) (x : RegIdx), (∀ j ≤ x.val, s.writable j) →
    ∃ t, exec (.store x) s = .next t ∧
      (u.i = s.i → (∀ j ≤ x.val, u.readByte (s.effAddr j) = t.readByte (s.effAddr j)) →
        ∃ w, exec (.load x) u = .next w ∧ ∀ r ≤ x, w.reg r = s.reg r)

/-- A later fetch at the address where Fx55 stored V0 and V1 gives the word V0 ++ V1: stores are seen by fetch,
big-endian (R73, R84; the coherence is the spec's decision D21). -/
def Obligations.StoredBytesAreFetched : Prop :=
  ∀ (s u : State) (x : RegIdx), 1 ≤ x.val → (∀ j ≤ x.val, s.writable j) →
    ∃ t, exec (.store x) s = .next t ∧
      (u.mem = t.mem → u.params = t.params → u.pc = s.i → u.fetch = .ok (s.reg 0 ++ s.reg 1))

/-! ## Draw -/

/-- 00E0 clears every pixel, sets REDRAW and changes nothing else but PC. -/
def Obligations.ClearScreen : Prop :=
  ∀ s : State, ∃ t, exec .cls s = .next t ∧ (∀ px py, Framebuffer.pixel t.fb px py = false) ∧
    t.redraw = true ∧ t.pc = s.pc + 2 ∧ t = { s with fb := t.fb, redraw := t.redraw, pc := t.pc } ∧
    SameBytes s t

/-- Dxyn flips exactly the pixels that a sprite bit of 1 lands on, wrapping on both axes, sets REDRAW and changes
nothing else but VF and PC, where every row can be read (R271, R272; that the coordinates are the registers as
they were is the spec's decision D12). -/
def Obligations.DrawFlipsSpritePixels : Prop :=
  ∀ (s : State) (x y : RegIdx) (n : Fin 16), (∀ r < n.val, s.readable r) →
    ∃ t, exec (.drw x y n) s = .next t ∧
      (∀ px py, s.spriteOn x y n.val px py → Framebuffer.pixel t.fb px py = !Framebuffer.pixel s.fb px py) ∧
      (∀ px py, ¬ s.spriteOn x y n.val px py → Framebuffer.pixel t.fb px py = Framebuffer.pixel s.fb px py) ∧
      t.redraw = true ∧ t.pc = s.pc + 2 ∧ OnlyDraw s t

/-- Dxyn leaves VF = 1 when some pixel that was on meets a sprite bit of 1, and VF = 0 otherwise
(R273; that the coordinates are the registers as they were is the spec's decision D12). -/
def Obligations.DrawCollisionFlag : Prop :=
  ∀ (s : State) (x y : RegIdx) (n : Fin 16), (∀ r < n.val, s.readable r) →
    ∃ t, exec (.drw x y n) s = .next t ∧
      ((∃ px py, s.spriteOn x y n.val px py ∧ Framebuffer.pixel s.fb px py = true) → t.reg vf = 1) ∧
      ((∀ px py, s.spriteOn x y n.val px py → Framebuffer.pixel s.fb px py = false) → t.reg vf = 0)

/-- Drawing the same sprite at the same place twice restores the framebuffer, and on a blank one the first draw
leaves VF = 0 and the second VF = 1 if any sprite bit is on (95_test_vectors.md E7, for every sprite; x and y are
not F, because VF changes between the draws). -/
def Obligations.DrawTwiceErases : Prop :=
  ∀ (s : State) (x y : RegIdx) (n : Fin 16), (∀ r < n.val, s.readable r) → x ≠ vf → y ≠ vf →
    ∃ t u, exec (.drw x y n) s = .next t ∧ exec (.drw x y n) t = .next u ∧ u.fb = s.fb ∧
      ((∀ px py, Framebuffer.pixel s.fb px py = false) →
        t.reg vf = 0 ∧ ((∃ px py, s.spriteOn x y n.val px py) → u.reg vf = 1))

/-! ## Keypad and timers -/

/-- Ex9E and ExA1 with V[x] a key index skip when that key is pressed, or is not, in this cycle's snapshot
(R291, R292; one snapshot a cycle is the spec's decision D25). -/
def Obligations.KeySkips : Prop :=
  ∀ (s : State) (x : RegIdx) (k : Fin 16), (s.reg x).toNat = k.val →
    (∃ t, exec (.skp x) s = .next t ∧ t.pc = (if s.keys[k] = true then s.pc + 4 else s.pc + 2) ∧ OnlyPc s t) ∧
    (∃ t, exec (.sknp x) s = .next t ∧ t.pc = (if s.keys[k] = true then s.pc + 2 else s.pc + 4) ∧ OnlyPc s t)

/-- Ex9E and ExA1 with V[x] > 0x0F latch KEY_INDEX_OUT_OF_RANGE with V[x] and change nothing else (R290, the spec's
decision D14). -/
def Obligations.KeyIndexOutOfRangeLatches : Prop :=
  ∀ (s : State) (x : RegIdx), 0x0F < (s.reg x).toNat →
    exec (.skp x) s = .next { s with fault := some ⟨.keyIndexOutOfRange, (s.reg x).toNat⟩ } ∧
    exec (.sknp x) s = .next { s with fault := some ⟨.keyIndexOutOfRange, (s.reg x).toNat⟩ }

/-- Fx07 writes DT as it stands before the cycle's decrement to V[x], and the cycle then lowers DT. Fx15 and Fx18
write V[x] to DT and to ST, and the timer stage of the same cycle lowers the new value. Nothing else but PC
changes. -/
def Obligations.TimerInstructions : Prop :=
  ∀ (s : State) (x : RegIdx),
    (∃ t, exec (.ldXDt x) s = .next t ∧ t.reg x = s.dt ∧ SameRegsBut x s t ∧ OnlyRegs s t ∧ t.pc = s.pc + 2 ∧
      (s.fault = none → t.endCycle.dt.toNat = s.dt.toNat - 1)) ∧
    (∃ t, exec (.ldDtX x) s = .next t ∧ t.dt = s.reg x ∧ t = { s with dt := t.dt, pc := t.pc } ∧ SameBytes s t ∧
      t.pc = s.pc + 2 ∧ (s.fault = none → t.endCycle.dt.toNat = (s.reg x).toNat - 1)) ∧
    (∃ t, exec (.ldStX x) s = .next t ∧ t.st = s.reg x ∧ t = { s with st := t.st, pc := t.pc } ∧ SameBytes s t ∧
      t.pc = s.pc + 2 ∧ (s.fault = none → t.endCycle.st.toNat = (s.reg x).toNat - 1))

/-- Fx0A with a key pressed writes the lowest one to V[x] and advances; with none it sets AWAIT and changes
nothing else, PC included (R294; the form of the wait is the spec's decision D15). -/
def Obligations.KeyWait : Prop :=
  ∀ (s : State) (x : RegIdx),
    (∀ k : Fin 16, s.keys[k] = true → (∀ j < k, s.keys[j] = false) →
      ∃ t, exec (.ldXK x) s = .next t ∧ (t.reg x).toNat = k.val ∧ SameRegsBut x s t ∧ OnlyRegs s t ∧
        t.pc = s.pc + 2) ∧
    ((∀ k : Fin 16, s.keys[k] = false) → exec (.ldXK x) s = .next { s with await := some x })

/-! ## The whole machine -/

/-- After initialisation, under any parameters, every piece of state of the block has its reset value and the
invariant holds (R49, R350; the values of REDRAW, AWAIT and FAULT are the spec's decision D16, the invariant is the
model's). -/
def Obligations.ResetValuesAndInvariant : Prop :=
  ∀ p : Params, InitialValues (State.resetWith p) ∧ (State.resetWith p).Inv

/-- Every step keeps the invariant: canonical memory, PC at most 0x10FE, return addresses at most 0x1000, and a
waiting block standing at its Fx0A (R35, R147, R171, R294, R295; the canonical form is the model's). -/
def Obligations.StepKeepsInvariant : Prop :=
  ∀ (s t : State), s.Inv → step s = .next t → t.Inv

/-- Under FONT_WRITE_POLICY = fault every step keeps the font region equal to FONT (R51, R77; the policy's default
is the spec's decision D8). -/
def Obligations.StepKeepsFontRegion : Prop :=
  ∀ (s t : State), s.params.fontWrite = .fault → s.fontIntact → step s = .next t →
    t.fontIntact ∧ t.params = s.params

/-- Only 2nnn and 00EE write SP and STACK: 2nnn raises SP by one and 00EE lowers it by one, and where they cannot
they leave it (R36, R37; the last is the spec's decision D17). -/
def Obligations.OnlyCallAndReturnMoveStack : Prop :=
  ∀ (i : Instr) (s t : State), exec i s = .next t →
    ((∀ nnn, i ≠ .call nnn) → i ≠ .ret → t.sp = s.sp ∧ t.stack = s.stack) ∧
    (∀ nnn, i = .call nnn → t.sp.val = s.sp.val + 1 ∨ (s.sp.val = 16 ∧ t.sp = s.sp ∧ t.stack = s.stack)) ∧
    (i = .ret → t.sp.val + 1 = s.sp.val ∨ (s.sp.val = 0 ∧ t.sp = s.sp ∧ t.stack = s.stack))

/-- Only `init` and `clear_redraw` clear REDRAW, and only 00E0 and Dxyn set it or write FB; without a fault they
always set it (R40, R41; that the host's action stands at the head of the script is the model's, log 7). -/
def Obligations.RedrawSetByDrawingClearedByHost : Prop :=
  (∀ s t : State, step s = .next t → s.redraw = true → t.redraw = false →
    s.script.head? = some .init ∨ s.script.head? = some .clearRedraw) ∧
  (∀ (i : Instr) (s t : State), exec i s = .next t → i ≠ .cls → (∀ x y n, i ≠ .drw x y n) →
    t.redraw = s.redraw ∧ t.fb = s.fb) ∧
  (∀ (i : Instr) (s t : State), exec i s = .next t → s.fault = none → t.fault = none →
    (i = .cls ∨ ∃ x y n, i = .drw x y n) → t.redraw = true)

/-- A general register changes only by an instruction that R32 or R31 lists for it (R32, which the spec derives
from the instructions' rules). -/
def Obligations.OnlyListedInstructionsWriteRegister : Prop :=
  ∀ (i : Instr) (s t : State) (r : RegIdx), exec i s = .next t → t.reg r ≠ s.reg r → mayWriteReg i r

/-- I changes only by Annn, Fx1E and Fx29, DT only by Fx15, ST only by Fx18 and AWAIT only by Fx0A, when an
instruction is executed (R33, R38, R39, R45; that nothing else changes I is the spec's decision D10). -/
def Obligations.OnlyListedInstructionsWriteSpecials : Prop :=
  ∀ (i : Instr) (s t : State), exec i s = .next t →
    (t.i ≠ s.i → (∃ nnn, i = .ldI nnn) ∨ (∃ x, i = .addIX x) ∨ ∃ x, i = .ldFX x) ∧
    (t.dt ≠ s.dt → ∃ x, i = .ldDtX x) ∧ (t.st ≠ s.st → ∃ x, i = .ldStX x) ∧
    (t.await ≠ s.await → ∃ x, i = .ldXK x)

/-- A byte of memory changes only by Fx33 within I..I+2 and by Fx55 within I..I+x (R70, R244, R245). -/
def Obligations.OnlyBcdAndStoreWriteMemory : Prop :=
  ∀ (i : Instr) (s t : State) (a : Nat), exec i s = .next t → t.readByte a ≠ s.readByte a →
    (∃ x off, i = .bcd x ∧ off < 3 ∧ a = s.effAddr off) ∨
    (∃ x off, i = .store x ∧ off ≤ x.val ∧ a = s.effAddr off)

/-- What an instruction other than Ex9E, ExA1, Fx0A and Cxkk does is the same whatever KEYS and RAND the host
supplies (R42, R43). -/
def Obligations.OnlyListedInstructionsReadInputs : Prop :=
  ∀ (i : Instr) (s t : State) (script : List HostAction), ¬ readsInput i → exec i s = .next t →
    exec i { s with script := script } = .next { t with script := script }

/-- A delay timer that no Fx15 writes stands k lower, and not below 0, after k safe cycles, waiting cycles counted
(R331, R362, which the spec derives; that waiting cycles count is its decision D15, and what is a cycle in the script
is the model's, log 7). -/
def Obligations.DelayTimerMeasuresCycles : Prop :=
  ∀ (k : Nat) (s t : State), SafeRun (fun u => u.atCycle ∧ ∀ x, ¬ u.fetches (.ldDtX x)) k s t →
    t.dt.toNat = s.dt.toNat - k

/-! ## The host's ports -/

/-- `init` gives every piece of state its reset value from any state, a halted or waiting one among them, and keeps
the parameters (R350, R353; the values of REDRAW, AWAIT and FAULT are the spec's decision D16, the script is the
model's, log 7). -/
def Obligations.InitActionResetsEverything : Prop :=
  ∀ (s : State) (rest : List HostAction), s.script = .init :: rest →
    ∃ t, step s = .next t ∧ InitialValues t ∧ t.params = s.params ∧ t.script = rest

/-- `load` directly after `init` copies a ROM of at most 3584 bytes to 0x200 and up and nothing else, and rejects a
longer one with the block unchanged; at any other time the model refuses it (R351; which lengths fit and when a
load is defined is the spec's decision D22, the refusal the model's log 8, the status port its log 9, the script and
the bookkeeping its logs 5, 7 and 8). -/
def Obligations.LoadCopiesOrRejectsRom : Prop :=
  ∀ (s : State) (rom : List Byte) (rest : List HostAction), s.script = .load rom :: rest →
    (s.freshInit = true → rom.length ≤ 3584 → ∃ t, step s = .next t ∧
      (∀ (j : Nat) (h : j < rom.length), t.readByte (0x200 + j) = rom[j]) ∧
      SameBytesOutside 0x200 rom.length s t ∧
      t = { s with mem := t.mem, loadStatus := some .ok }.actionDone false) ∧
    (s.freshInit = true → 3584 < rom.length →
      step s = .next ({ s with loadStatus := some .rejected }.actionDone false)) ∧
    (s.freshInit = false → step s = .refused .loadOutsideContract)

/-- `clear_redraw` sets REDRAW to false and changes nothing else of the block, and no instruction clears REDRAW (R41,
R341; the script and the bookkeeping are the model's, log 5, log 7, log 8). -/
def Obligations.ClearRedrawAction : Prop :=
  (∀ (s : State) (rest : List HostAction), s.script = .clearRedraw :: rest →
    step s = .next ({ s with redraw := false }.actionDone false)) ∧
  (∀ (i : Instr) (s t : State), exec i s = .next t → s.redraw = true → t.redraw = true)

/-- The fault output is 0 while nothing is latched and then the number of the code, and `sound_active` is
ST ≠ 0 (R333, R340; the numbers of R311 are the spec's decision D16). -/
def Obligations.OutputsReadState : Prop :=
  ∀ s : State, (s.soundActive = true ↔ s.st.toNat ≠ 0) ∧ (s.faultNumber = 0 ↔ ¬ s.halted) ∧
    ∀ (code : FaultCode) (info : Nat), s.fault = some ⟨code, info⟩ →
      (code, s.faultNumber) ∈ [(FaultCode.fetchOutOfRange, 1), (.unknownOpcode, 2), (.stackOverflow, 3),
        (.stackUnderflow, 4), (.memOutOfRange, 5), (.fontWrite, 6), (.keyIndexOutOfRange, 7)]
end

