-- ==== Sys2Proof/Laws/Memory.lean ====
section
/-! SUPPORT. The laws of the canonical memory list: read after write, the canonical form kept by every
operation, and equal contents are equal data. -/

namespace Sys2Proof.Machine.Laws

theorem lookup_cons (b d : Nat) (w : Byte) (m : Memory) :
    List.lookup b ((d, w) :: m) = if b = d then some w else List.lookup b m := by
  by_cases h : b = d <;> simp [List.lookup, h, beq_eq_false_iff_ne.mpr]

theorem lookup_insert (a b : Nat) (v : Byte) (m : Memory) :
    List.lookup b (Memory.insert a v m) = if b = a then some v else List.lookup b m := by
  induction m with
  | nil => simp [Memory.insert, lookup_cons]
  | cons c m ih =>
    obtain ⟨d, w⟩ := c
    unfold Memory.insert
    by_cases h1 : a < d
    · simp [h1, lookup_cons]
    · by_cases h2 : a = d
      · subst h2; by_cases h3 : b = a <;> simp [lookup_cons, h3]
      · by_cases h3 : b = d
        · simp [h1, h2, h3, Ne.symm h2]
        · simp [h1, h2, lookup_cons, h3, ih]

theorem lookup_erase (a b : Nat) (m : Memory) :
    List.lookup b (Memory.erase a m) = if b = a then none else List.lookup b m := by
  induction m with
  | nil => simp [Memory.erase]
  | cons c m ih =>
    obtain ⟨d, w⟩ := c
    by_cases h1 : d = a
    · have h2 : Memory.erase a ((d, w) :: m) = Memory.erase a m := by simp [Memory.erase, h1]
      rw [h2, ih, lookup_cons, h1]
      split_ifs <;> rfl
    · have h2 : Memory.erase a ((d, w) :: m) = (d, w) :: Memory.erase a m := by simp [Memory.erase, h1]
      rw [h2, lookup_cons, lookup_cons, ih]
      split_ifs with h3 h4
      · exact absurd (h3.symm.trans h4) h1
      all_goals rfl

/-- One byte read after one byte written: the new byte at its address, every other byte as before. -/
theorem read_write (p : Params) (m : Memory) (a b : Nat) (v : Byte) :
    Memory.read p (Memory.write p m a v) b = if b = a then v else Memory.read p m b := by
  unfold Memory.read Memory.write
  by_cases hv : v = initByte p a <;> by_cases hb : b = a <;>
    simp [hv, hb, lookup_erase, lookup_insert]

@[simp] theorem read_write_self (p : Params) (m : Memory) (a : Nat) (v : Byte) :
    Memory.read p (Memory.write p m a v) a = v := by simp [read_write]

theorem read_write_other (p : Params) (m : Memory) {a b : Nat} (v : Byte) (h : b ≠ a) :
    Memory.read p (Memory.write p m a v) b = Memory.read p m b := by simp [read_write, h]

/-- Every byte after a run of bytes is written from address a up: the k-th byte written stands at a + k, and
every byte outside the run is as before. -/
theorem read_writeList (p : Params) (m : Memory) (a : Nat) (bs : List Byte) (b : Nat) :
    Memory.read p (Memory.writeList p m a bs) b =
      if a ≤ b then (bs[b - a]?).getD (Memory.read p m b) else Memory.read p m b := by
  induction bs generalizing m a with
  | nil => simp [Memory.writeList]
  | cons v bs ih =>
    rw [Memory.writeList, ih, read_write]
    rcases Nat.lt_trichotomy b a with h | h | h
    · simp [Nat.not_le.mpr h, Nat.not_le.mpr (Nat.lt_succ_of_lt h), Nat.ne_of_lt h]
    · subst h; simp
    · have h1 : a + 1 ≤ b := h
      have h2 : b - a = (b - (a + 1)) + 1 := by omega
      simp [h1, Nat.le_of_lt h, Nat.ne_of_gt h, h2]

theorem read_writeList_inside (p : Params) (m : Memory) (a k : Nat) (bs : List Byte) (h : k < bs.length) :
    Memory.read p (Memory.writeList p m a bs) (a + k) = bs[k] := by
  simp [read_writeList, h]

theorem read_writeList_outside (p : Params) (m : Memory) (a : Nat) (bs : List Byte) (b : Nat)
    (h : b < a ∨ a + bs.length ≤ b) :
    Memory.read p (Memory.writeList p m a bs) b = Memory.read p m b := by
  rw [read_writeList]
  split_ifs with h1
  · have : bs.length ≤ b - a := by omega
    simp [this]
  · rfl

theorem mem_insert (a : Nat) (v : Byte) (m : Memory) (c : Host.Cell) (h : c ∈ Memory.insert a v m) :
    c = (a, v) ∨ c ∈ m := by
  induction m with
  | nil => simpa [Memory.insert] using h
  | cons d m ih =>
    unfold Memory.insert at h
    split_ifs at h <;> simp_all
    · tauto
    · tauto

theorem insert_wf (p : Params) (m : Memory) (a : Nat) (v : Byte) (hm : Memory.wf p m) (ha : a < memSize)
    (hv : v ≠ initByte p a) : Memory.wf p (Memory.insert a v m) := by
  obtain ⟨hs, hc⟩ := hm
  refine ⟨?_, fun c h => (mem_insert a v m c h).elim (fun e => e ▸ ⟨ha, hv⟩) (hc c)⟩
  clear hc
  induction m with
  | nil => simp [Memory.insert]
  | cons d m ih =>
    obtain ⟨hd, hs'⟩ := List.pairwise_cons.mp hs
    unfold Memory.insert
    split_ifs with h1 h2
    · refine List.pairwise_cons.mpr ⟨fun c hcm => ?_, hs⟩
      rcases List.mem_cons.mp hcm with rfl | hcm
      · exact h1
      · exact Nat.lt_trans h1 (hd c hcm)
    · exact List.pairwise_cons.mpr ⟨fun c hcm => by have := hd c hcm; simp_all, hs'⟩
    · refine List.pairwise_cons.mpr ⟨fun c hcm => ?_, ih hs'⟩
      rcases mem_insert a v m c hcm with rfl | hcm
      · simp only; omega
      · exact hd c hcm

theorem erase_wf (p : Params) (m : Memory) (a : Nat) (hm : Memory.wf p m) : Memory.wf p (Memory.erase a m) :=
  ⟨hm.1.filter _, fun c h => hm.2 c (List.mem_filter.mp h).1⟩

/-- A write inside the address space keeps the canonical form. -/
theorem write_wf (p : Params) (m : Memory) (a : Nat) (v : Byte) (hm : Memory.wf p m) (ha : a < memSize) :
    Memory.wf p (Memory.write p m a v) := by
  unfold Memory.write
  split_ifs with h
  · exact erase_wf p m a hm
  · exact insert_wf p m a v hm ha h

/-- A run of writes inside the address space keeps the canonical form. -/
theorem writeList_wf (p : Params) (m : Memory) (a : Nat) (bs : List Byte) (hm : Memory.wf p m)
    (ha : a + bs.length ≤ memSize) : Memory.wf p (Memory.writeList p m a bs) := by
  induction bs generalizing m a with
  | nil => exact hm
  | cons v bs ih =>
    simp only [List.length_cons] at ha
    exact ih _ _ (write_wf p m a v hm (by omega)) (by omega)

theorem nil_wf (p : Params) : Memory.wf p [] := ⟨List.Pairwise.nil, fun _ h => absurd h List.not_mem_nil⟩

theorem lookup_eq_none_of_lt (m : Memory) (a : Nat) (h : ∀ c ∈ m, a < c.1) : List.lookup a m = none := by
  induction m with
  | nil => rfl
  | cons c m ih =>
    obtain ⟨d, w⟩ := c
    have : a < d := h (d, w) (by simp)
    rw [lookup_cons, if_neg (by omega), ih (fun c hc => h c (by simp [hc]))]

/-- A canonical memory lists exactly the pairs that its lookup finds. -/
theorem mem_iff_lookup (p : Params) (m : Memory) (hm : Memory.wf p m) (a : Nat) (b : Byte) :
    (a, b) ∈ m ↔ List.lookup a m = some b := by
  induction m with
  | nil => simp
  | cons d m ih =>
    obtain ⟨d, w⟩ := d
    have hs := List.pairwise_cons.mp hm.1
    rw [lookup_cons, List.mem_cons, ih ⟨hs.2, fun c hc => hm.2 c (List.mem_cons_of_mem _ hc)⟩]
    by_cases h : a = d
    · subst h
      have : List.lookup a m = none := lookup_eq_none_of_lt m a hs.1
      simp [this, eq_comm]
    · simp [h]

/-- Whether a canonical memory lists a pair is settled by its bytes. -/
theorem mem_iff_read (p : Params) (m : Memory) (hm : Memory.wf p m) (a : Nat) (b : Byte) :
    (a, b) ∈ m ↔ Memory.read p m a = b ∧ b ≠ initByte p a := by
  unfold Memory.read
  rw [mem_iff_lookup p m hm]
  cases h : List.lookup a m with
  | none => simp [eq_comm]
  | some c =>
    have hc : c ≠ initByte p a := (hm.2 (a, c) ((mem_iff_lookup p m hm a c).mpr h)).2
    constructor
    · rintro ⟨⟩; exact ⟨rfl, hc⟩
    · rintro ⟨h, -⟩; exact congrArg some h

/-- Canonical memories with the same bytes are the same data. -/
theorem eq_of_read_eq (p : Params) (m n : Memory) (hm : Memory.wf p m) (hn : Memory.wf p n)
    (h : ∀ a, Memory.read p m a = Memory.read p n a) : m = n := by
  have nodup : ∀ m : Memory, Memory.wf p m → m.Nodup := fun m hm =>
    hm.1.imp (fun hlt heq => by subst heq; exact Nat.lt_irrefl _ hlt)
  have hperm : m.Perm n := (List.perm_ext_iff_of_nodup (nodup m hm) (nodup n hn)).mpr fun c => by
    rw [show c = (c.1, c.2) from rfl, mem_iff_read p m hm, mem_iff_read p n hn, h]
  exact hperm.eq_of_pairwise (fun a b _ _ h1 h2 => absurd (Nat.lt_trans h1 h2) (Nat.lt_irrefl _)) hm.1 hn.1

end Sys2Proof.Machine.Laws
end

