-- ==== Sys2Proof/Laws/State.lean ====
section
/-! SUPPORT. One lemma per field per update of the state, and one per derived read that an update leaves alone.
All hold by rfl, so that no later proof unfolds a record update. -/

namespace Sys2Proof.Machine.Laws

/-! ### `setReg` -/

@[simp] theorem setReg_v (s : State) (x : RegIdx) (b : Byte) : (s.setReg x b).v = s.v.set x b := rfl
@[simp] theorem setReg_i (s : State) (x : RegIdx) (b : Byte) : (s.setReg x b).i = s.i := rfl
@[simp] theorem setReg_pc (s : State) (x : RegIdx) (b : Byte) : (s.setReg x b).pc = s.pc := rfl
@[simp] theorem setReg_sp (s : State) (x : RegIdx) (b : Byte) : (s.setReg x b).sp = s.sp := rfl
@[simp] theorem setReg_stack (s : State) (x : RegIdx) (b : Byte) : (s.setReg x b).stack = s.stack := rfl
@[simp] theorem setReg_dt (s : State) (x : RegIdx) (b : Byte) : (s.setReg x b).dt = s.dt := rfl
@[simp] theorem setReg_st (s : State) (x : RegIdx) (b : Byte) : (s.setReg x b).st = s.st := rfl
@[simp] theorem setReg_fb (s : State) (x : RegIdx) (b : Byte) : (s.setReg x b).fb = s.fb := rfl
@[simp] theorem setReg_redraw (s : State) (x : RegIdx) (b : Byte) : (s.setReg x b).redraw = s.redraw := rfl
@[simp] theorem setReg_mem (s : State) (x : RegIdx) (b : Byte) : (s.setReg x b).mem = s.mem := rfl
@[simp] theorem setReg_await (s : State) (x : RegIdx) (b : Byte) : (s.setReg x b).await = s.await := rfl
@[simp] theorem setReg_fault (s : State) (x : RegIdx) (b : Byte) : (s.setReg x b).fault = s.fault := rfl
@[simp] theorem setReg_params (s : State) (x : RegIdx) (b : Byte) : (s.setReg x b).params = s.params := rfl
@[simp] theorem setReg_loadStatus (s : State) (x : RegIdx) (b : Byte) : (s.setReg x b).loadStatus = s.loadStatus := rfl
@[simp] theorem setReg_script (s : State) (x : RegIdx) (b : Byte) : (s.setReg x b).script = s.script := rfl
@[simp] theorem setReg_tick (s : State) (x : RegIdx) (b : Byte) : (s.setReg x b).tick = s.tick := rfl
@[simp] theorem setReg_freshInit (s : State) (x : RegIdx) (b : Byte) : (s.setReg x b).freshInit = s.freshInit := rfl
@[simp] theorem setReg_readByte (s : State) (x : RegIdx) (b : Byte) (a : Nat) : (s.setReg x b).readByte a = s.readByte a := rfl
@[simp] theorem setReg_readWord (s : State) (x : RegIdx) (b : Byte) (a : Nat) : (s.setReg x b).readWord a = s.readWord a := rfl
@[simp] theorem setReg_keys (s : State) (x : RegIdx) (b : Byte) : (s.setReg x b).keys = s.keys := rfl
@[simp] theorem setReg_rand (s : State) (x : RegIdx) (b : Byte) : (s.setReg x b).rand = s.rand := rfl
@[simp] theorem setReg_effAddr (s : State) (x : RegIdx) (b : Byte) (n : Nat) : (s.setReg x b).effAddr n = s.effAddr n := rfl

/-! ### `setLowRegs` -/

@[simp] theorem setLowRegs_v (s : State) (t : List Byte) : (s.setLowRegs t).v = Vector.ofFn (fun k : Fin 16 => (t[k.val]?).getD s.v[k]) := rfl
@[simp] theorem setLowRegs_i (s : State) (t : List Byte) : (s.setLowRegs t).i = s.i := rfl
@[simp] theorem setLowRegs_pc (s : State) (t : List Byte) : (s.setLowRegs t).pc = s.pc := rfl
@[simp] theorem setLowRegs_sp (s : State) (t : List Byte) : (s.setLowRegs t).sp = s.sp := rfl
@[simp] theorem setLowRegs_stack (s : State) (t : List Byte) : (s.setLowRegs t).stack = s.stack := rfl
@[simp] theorem setLowRegs_dt (s : State) (t : List Byte) : (s.setLowRegs t).dt = s.dt := rfl
@[simp] theorem setLowRegs_st (s : State) (t : List Byte) : (s.setLowRegs t).st = s.st := rfl
@[simp] theorem setLowRegs_fb (s : State) (t : List Byte) : (s.setLowRegs t).fb = s.fb := rfl
@[simp] theorem setLowRegs_redraw (s : State) (t : List Byte) : (s.setLowRegs t).redraw = s.redraw := rfl
@[simp] theorem setLowRegs_mem (s : State) (t : List Byte) : (s.setLowRegs t).mem = s.mem := rfl
@[simp] theorem setLowRegs_await (s : State) (t : List Byte) : (s.setLowRegs t).await = s.await := rfl
@[simp] theorem setLowRegs_fault (s : State) (t : List Byte) : (s.setLowRegs t).fault = s.fault := rfl
@[simp] theorem setLowRegs_params (s : State) (t : List Byte) : (s.setLowRegs t).params = s.params := rfl
@[simp] theorem setLowRegs_loadStatus (s : State) (t : List Byte) : (s.setLowRegs t).loadStatus = s.loadStatus := rfl
@[simp] theorem setLowRegs_script (s : State) (t : List Byte) : (s.setLowRegs t).script = s.script := rfl
@[simp] theorem setLowRegs_tick (s : State) (t : List Byte) : (s.setLowRegs t).tick = s.tick := rfl
@[simp] theorem setLowRegs_freshInit (s : State) (t : List Byte) : (s.setLowRegs t).freshInit = s.freshInit := rfl
@[simp] theorem setLowRegs_readByte (s : State) (t : List Byte) (a : Nat) : (s.setLowRegs t).readByte a = s.readByte a := rfl
@[simp] theorem setLowRegs_readWord (s : State) (t : List Byte) (a : Nat) : (s.setLowRegs t).readWord a = s.readWord a := rfl
@[simp] theorem setLowRegs_keys (s : State) (t : List Byte) : (s.setLowRegs t).keys = s.keys := rfl
@[simp] theorem setLowRegs_rand (s : State) (t : List Byte) : (s.setLowRegs t).rand = s.rand := rfl
@[simp] theorem setLowRegs_effAddr (s : State) (t : List Byte) (n : Nat) : (s.setLowRegs t).effAddr n = s.effAddr n := rfl

/-! ### `setI` -/

@[simp] theorem setI_v (s : State) (p : Word) : (s.setI p).v = s.v := rfl
@[simp] theorem setI_i (s : State) (p : Word) : (s.setI p).i = p := rfl
@[simp] theorem setI_pc (s : State) (p : Word) : (s.setI p).pc = s.pc := rfl
@[simp] theorem setI_sp (s : State) (p : Word) : (s.setI p).sp = s.sp := rfl
@[simp] theorem setI_stack (s : State) (p : Word) : (s.setI p).stack = s.stack := rfl
@[simp] theorem setI_dt (s : State) (p : Word) : (s.setI p).dt = s.dt := rfl
@[simp] theorem setI_st (s : State) (p : Word) : (s.setI p).st = s.st := rfl
@[simp] theorem setI_fb (s : State) (p : Word) : (s.setI p).fb = s.fb := rfl
@[simp] theorem setI_redraw (s : State) (p : Word) : (s.setI p).redraw = s.redraw := rfl
@[simp] theorem setI_mem (s : State) (p : Word) : (s.setI p).mem = s.mem := rfl
@[simp] theorem setI_await (s : State) (p : Word) : (s.setI p).await = s.await := rfl
@[simp] theorem setI_fault (s : State) (p : Word) : (s.setI p).fault = s.fault := rfl
@[simp] theorem setI_params (s : State) (p : Word) : (s.setI p).params = s.params := rfl
@[simp] theorem setI_loadStatus (s : State) (p : Word) : (s.setI p).loadStatus = s.loadStatus := rfl
@[simp] theorem setI_script (s : State) (p : Word) : (s.setI p).script = s.script := rfl
@[simp] theorem setI_tick (s : State) (p : Word) : (s.setI p).tick = s.tick := rfl
@[simp] theorem setI_freshInit (s : State) (p : Word) : (s.setI p).freshInit = s.freshInit := rfl
@[simp] theorem setI_reg (s : State) (p : Word) (r : RegIdx) : (s.setI p).reg r = s.reg r := rfl
@[simp] theorem setI_readByte (s : State) (p : Word) (a : Nat) : (s.setI p).readByte a = s.readByte a := rfl
@[simp] theorem setI_readWord (s : State) (p : Word) (a : Nat) : (s.setI p).readWord a = s.readWord a := rfl
@[simp] theorem setI_keys (s : State) (p : Word) : (s.setI p).keys = s.keys := rfl
@[simp] theorem setI_rand (s : State) (p : Word) : (s.setI p).rand = s.rand := rfl

/-! ### `setDt` -/

@[simp] theorem setDt_v (s : State) (b : Byte) : (s.setDt b).v = s.v := rfl
@[simp] theorem setDt_i (s : State) (b : Byte) : (s.setDt b).i = s.i := rfl
@[simp] theorem setDt_pc (s : State) (b : Byte) : (s.setDt b).pc = s.pc := rfl
@[simp] theorem setDt_sp (s : State) (b : Byte) : (s.setDt b).sp = s.sp := rfl
@[simp] theorem setDt_stack (s : State) (b : Byte) : (s.setDt b).stack = s.stack := rfl
@[simp] theorem setDt_dt (s : State) (b : Byte) : (s.setDt b).dt = b := rfl
@[simp] theorem setDt_st (s : State) (b : Byte) : (s.setDt b).st = s.st := rfl
@[simp] theorem setDt_fb (s : State) (b : Byte) : (s.setDt b).fb = s.fb := rfl
@[simp] theorem setDt_redraw (s : State) (b : Byte) : (s.setDt b).redraw = s.redraw := rfl
@[simp] theorem setDt_mem (s : State) (b : Byte) : (s.setDt b).mem = s.mem := rfl
@[simp] theorem setDt_await (s : State) (b : Byte) : (s.setDt b).await = s.await := rfl
@[simp] theorem setDt_fault (s : State) (b : Byte) : (s.setDt b).fault = s.fault := rfl
@[simp] theorem setDt_params (s : State) (b : Byte) : (s.setDt b).params = s.params := rfl
@[simp] theorem setDt_loadStatus (s : State) (b : Byte) : (s.setDt b).loadStatus = s.loadStatus := rfl
@[simp] theorem setDt_script (s : State) (b : Byte) : (s.setDt b).script = s.script := rfl
@[simp] theorem setDt_tick (s : State) (b : Byte) : (s.setDt b).tick = s.tick := rfl
@[simp] theorem setDt_freshInit (s : State) (b : Byte) : (s.setDt b).freshInit = s.freshInit := rfl
@[simp] theorem setDt_reg (s : State) (b : Byte) (r : RegIdx) : (s.setDt b).reg r = s.reg r := rfl
@[simp] theorem setDt_readByte (s : State) (b : Byte) (a : Nat) : (s.setDt b).readByte a = s.readByte a := rfl
@[simp] theorem setDt_readWord (s : State) (b : Byte) (a : Nat) : (s.setDt b).readWord a = s.readWord a := rfl
@[simp] theorem setDt_keys (s : State) (b : Byte) : (s.setDt b).keys = s.keys := rfl
@[simp] theorem setDt_rand (s : State) (b : Byte) : (s.setDt b).rand = s.rand := rfl
@[simp] theorem setDt_effAddr (s : State) (b : Byte) (n : Nat) : (s.setDt b).effAddr n = s.effAddr n := rfl

/-! ### `setSt` -/

@[simp] theorem setSt_v (s : State) (b : Byte) : (s.setSt b).v = s.v := rfl
@[simp] theorem setSt_i (s : State) (b : Byte) : (s.setSt b).i = s.i := rfl
@[simp] theorem setSt_pc (s : State) (b : Byte) : (s.setSt b).pc = s.pc := rfl
@[simp] theorem setSt_sp (s : State) (b : Byte) : (s.setSt b).sp = s.sp := rfl
@[simp] theorem setSt_stack (s : State) (b : Byte) : (s.setSt b).stack = s.stack := rfl
@[simp] theorem setSt_dt (s : State) (b : Byte) : (s.setSt b).dt = s.dt := rfl
@[simp] theorem setSt_st (s : State) (b : Byte) : (s.setSt b).st = b := rfl
@[simp] theorem setSt_fb (s : State) (b : Byte) : (s.setSt b).fb = s.fb := rfl
@[simp] theorem setSt_redraw (s : State) (b : Byte) : (s.setSt b).redraw = s.redraw := rfl
@[simp] theorem setSt_mem (s : State) (b : Byte) : (s.setSt b).mem = s.mem := rfl
@[simp] theorem setSt_await (s : State) (b : Byte) : (s.setSt b).await = s.await := rfl
@[simp] theorem setSt_fault (s : State) (b : Byte) : (s.setSt b).fault = s.fault := rfl
@[simp] theorem setSt_params (s : State) (b : Byte) : (s.setSt b).params = s.params := rfl
@[simp] theorem setSt_loadStatus (s : State) (b : Byte) : (s.setSt b).loadStatus = s.loadStatus := rfl
@[simp] theorem setSt_script (s : State) (b : Byte) : (s.setSt b).script = s.script := rfl
@[simp] theorem setSt_tick (s : State) (b : Byte) : (s.setSt b).tick = s.tick := rfl
@[simp] theorem setSt_freshInit (s : State) (b : Byte) : (s.setSt b).freshInit = s.freshInit := rfl
@[simp] theorem setSt_reg (s : State) (b : Byte) (r : RegIdx) : (s.setSt b).reg r = s.reg r := rfl
@[simp] theorem setSt_readByte (s : State) (b : Byte) (a : Nat) : (s.setSt b).readByte a = s.readByte a := rfl
@[simp] theorem setSt_readWord (s : State) (b : Byte) (a : Nat) : (s.setSt b).readWord a = s.readWord a := rfl
@[simp] theorem setSt_keys (s : State) (b : Byte) : (s.setSt b).keys = s.keys := rfl
@[simp] theorem setSt_rand (s : State) (b : Byte) : (s.setSt b).rand = s.rand := rfl
@[simp] theorem setSt_effAddr (s : State) (b : Byte) (n : Nat) : (s.setSt b).effAddr n = s.effAddr n := rfl

/-! ### `setAwait` -/

@[simp] theorem setAwait_v (s : State) (o : Option RegIdx) : (s.setAwait o).v = s.v := rfl
@[simp] theorem setAwait_i (s : State) (o : Option RegIdx) : (s.setAwait o).i = s.i := rfl
@[simp] theorem setAwait_pc (s : State) (o : Option RegIdx) : (s.setAwait o).pc = s.pc := rfl
@[simp] theorem setAwait_sp (s : State) (o : Option RegIdx) : (s.setAwait o).sp = s.sp := rfl
@[simp] theorem setAwait_stack (s : State) (o : Option RegIdx) : (s.setAwait o).stack = s.stack := rfl
@[simp] theorem setAwait_dt (s : State) (o : Option RegIdx) : (s.setAwait o).dt = s.dt := rfl
@[simp] theorem setAwait_st (s : State) (o : Option RegIdx) : (s.setAwait o).st = s.st := rfl
@[simp] theorem setAwait_fb (s : State) (o : Option RegIdx) : (s.setAwait o).fb = s.fb := rfl
@[simp] theorem setAwait_redraw (s : State) (o : Option RegIdx) : (s.setAwait o).redraw = s.redraw := rfl
@[simp] theorem setAwait_mem (s : State) (o : Option RegIdx) : (s.setAwait o).mem = s.mem := rfl
@[simp] theorem setAwait_await (s : State) (o : Option RegIdx) : (s.setAwait o).await = o := rfl
@[simp] theorem setAwait_fault (s : State) (o : Option RegIdx) : (s.setAwait o).fault = s.fault := rfl
@[simp] theorem setAwait_params (s : State) (o : Option RegIdx) : (s.setAwait o).params = s.params := rfl
@[simp] theorem setAwait_loadStatus (s : State) (o : Option RegIdx) : (s.setAwait o).loadStatus = s.loadStatus := rfl
@[simp] theorem setAwait_script (s : State) (o : Option RegIdx) : (s.setAwait o).script = s.script := rfl
@[simp] theorem setAwait_tick (s : State) (o : Option RegIdx) : (s.setAwait o).tick = s.tick := rfl
@[simp] theorem setAwait_freshInit (s : State) (o : Option RegIdx) : (s.setAwait o).freshInit = s.freshInit := rfl
@[simp] theorem setAwait_reg (s : State) (o : Option RegIdx) (r : RegIdx) : (s.setAwait o).reg r = s.reg r := rfl
@[simp] theorem setAwait_readByte (s : State) (o : Option RegIdx) (a : Nat) : (s.setAwait o).readByte a = s.readByte a := rfl
@[simp] theorem setAwait_readWord (s : State) (o : Option RegIdx) (a : Nat) : (s.setAwait o).readWord a = s.readWord a := rfl
@[simp] theorem setAwait_keys (s : State) (o : Option RegIdx) : (s.setAwait o).keys = s.keys := rfl
@[simp] theorem setAwait_rand (s : State) (o : Option RegIdx) : (s.setAwait o).rand = s.rand := rfl
@[simp] theorem setAwait_effAddr (s : State) (o : Option RegIdx) (n : Nat) : (s.setAwait o).effAddr n = s.effAddr n := rfl

/-! ### `setPc` -/

@[simp] theorem setPc_v (s : State) (p : Word) : (s.setPc p).v = s.v := rfl
@[simp] theorem setPc_i (s : State) (p : Word) : (s.setPc p).i = s.i := rfl
@[simp] theorem setPc_pc (s : State) (p : Word) : (s.setPc p).pc = p := rfl
@[simp] theorem setPc_sp (s : State) (p : Word) : (s.setPc p).sp = s.sp := rfl
@[simp] theorem setPc_stack (s : State) (p : Word) : (s.setPc p).stack = s.stack := rfl
@[simp] theorem setPc_dt (s : State) (p : Word) : (s.setPc p).dt = s.dt := rfl
@[simp] theorem setPc_st (s : State) (p : Word) : (s.setPc p).st = s.st := rfl
@[simp] theorem setPc_fb (s : State) (p : Word) : (s.setPc p).fb = s.fb := rfl
@[simp] theorem setPc_redraw (s : State) (p : Word) : (s.setPc p).redraw = s.redraw := rfl
@[simp] theorem setPc_mem (s : State) (p : Word) : (s.setPc p).mem = s.mem := rfl
@[simp] theorem setPc_await (s : State) (p : Word) : (s.setPc p).await = s.await := rfl
@[simp] theorem setPc_fault (s : State) (p : Word) : (s.setPc p).fault = s.fault := rfl
@[simp] theorem setPc_params (s : State) (p : Word) : (s.setPc p).params = s.params := rfl
@[simp] theorem setPc_loadStatus (s : State) (p : Word) : (s.setPc p).loadStatus = s.loadStatus := rfl
@[simp] theorem setPc_script (s : State) (p : Word) : (s.setPc p).script = s.script := rfl
@[simp] theorem setPc_tick (s : State) (p : Word) : (s.setPc p).tick = s.tick := rfl
@[simp] theorem setPc_freshInit (s : State) (p : Word) : (s.setPc p).freshInit = s.freshInit := rfl
@[simp] theorem setPc_reg (s : State) (p : Word) (r : RegIdx) : (s.setPc p).reg r = s.reg r := rfl
@[simp] theorem setPc_readByte (s : State) (p : Word) (a : Nat) : (s.setPc p).readByte a = s.readByte a := rfl
@[simp] theorem setPc_readWord (s : State) (p : Word) (a : Nat) : (s.setPc p).readWord a = s.readWord a := rfl
@[simp] theorem setPc_keys (s : State) (p : Word) : (s.setPc p).keys = s.keys := rfl
@[simp] theorem setPc_rand (s : State) (p : Word) : (s.setPc p).rand = s.rand := rfl
@[simp] theorem setPc_effAddr (s : State) (p : Word) (n : Nat) : (s.setPc p).effAddr n = s.effAddr n := rfl

/-! ### `advance` -/

@[simp] theorem advance_v (s : State) : s.advance.v = s.v := rfl
@[simp] theorem advance_i (s : State) : s.advance.i = s.i := rfl
@[simp] theorem advance_pc (s : State) : s.advance.pc = s.pc + 2 := rfl
@[simp] theorem advance_sp (s : State) : s.advance.sp = s.sp := rfl
@[simp] theorem advance_stack (s : State) : s.advance.stack = s.stack := rfl
@[simp] theorem advance_dt (s : State) : s.advance.dt = s.dt := rfl
@[simp] theorem advance_st (s : State) : s.advance.st = s.st := rfl
@[simp] theorem advance_fb (s : State) : s.advance.fb = s.fb := rfl
@[simp] theorem advance_redraw (s : State) : s.advance.redraw = s.redraw := rfl
@[simp] theorem advance_mem (s : State) : s.advance.mem = s.mem := rfl
@[simp] theorem advance_await (s : State) : s.advance.await = s.await := rfl
@[simp] theorem advance_fault (s : State) : s.advance.fault = s.fault := rfl
@[simp] theorem advance_params (s : State) : s.advance.params = s.params := rfl
@[simp] theorem advance_loadStatus (s : State) : s.advance.loadStatus = s.loadStatus := rfl
@[simp] theorem advance_script (s : State) : s.advance.script = s.script := rfl
@[simp] theorem advance_tick (s : State) : s.advance.tick = s.tick := rfl
@[simp] theorem advance_freshInit (s : State) : s.advance.freshInit = s.freshInit := rfl
@[simp] theorem advance_reg (s : State) (r : RegIdx) : s.advance.reg r = s.reg r := rfl
@[simp] theorem advance_readByte (s : State) (a : Nat) : s.advance.readByte a = s.readByte a := rfl
@[simp] theorem advance_readWord (s : State) (a : Nat) : s.advance.readWord a = s.readWord a := rfl
@[simp] theorem advance_keys (s : State) : s.advance.keys = s.keys := rfl
@[simp] theorem advance_rand (s : State) : s.advance.rand = s.rand := rfl
@[simp] theorem advance_effAddr (s : State) (n : Nat) : s.advance.effAddr n = s.effAddr n := rfl

/-! ### `skipIf` -/

@[simp] theorem skipIf_v (s : State) (c : Bool) : (s.skipIf c).v = s.v := rfl
@[simp] theorem skipIf_i (s : State) (c : Bool) : (s.skipIf c).i = s.i := rfl
@[simp] theorem skipIf_pc (s : State) (c : Bool) : (s.skipIf c).pc = if c then s.pc + 4 else s.pc + 2 := rfl
@[simp] theorem skipIf_sp (s : State) (c : Bool) : (s.skipIf c).sp = s.sp := rfl
@[simp] theorem skipIf_stack (s : State) (c : Bool) : (s.skipIf c).stack = s.stack := rfl
@[simp] theorem skipIf_dt (s : State) (c : Bool) : (s.skipIf c).dt = s.dt := rfl
@[simp] theorem skipIf_st (s : State) (c : Bool) : (s.skipIf c).st = s.st := rfl
@[simp] theorem skipIf_fb (s : State) (c : Bool) : (s.skipIf c).fb = s.fb := rfl
@[simp] theorem skipIf_redraw (s : State) (c : Bool) : (s.skipIf c).redraw = s.redraw := rfl
@[simp] theorem skipIf_mem (s : State) (c : Bool) : (s.skipIf c).mem = s.mem := rfl
@[simp] theorem skipIf_await (s : State) (c : Bool) : (s.skipIf c).await = s.await := rfl
@[simp] theorem skipIf_fault (s : State) (c : Bool) : (s.skipIf c).fault = s.fault := rfl
@[simp] theorem skipIf_params (s : State) (c : Bool) : (s.skipIf c).params = s.params := rfl
@[simp] theorem skipIf_loadStatus (s : State) (c : Bool) : (s.skipIf c).loadStatus = s.loadStatus := rfl
@[simp] theorem skipIf_script (s : State) (c : Bool) : (s.skipIf c).script = s.script := rfl
@[simp] theorem skipIf_tick (s : State) (c : Bool) : (s.skipIf c).tick = s.tick := rfl
@[simp] theorem skipIf_freshInit (s : State) (c : Bool) : (s.skipIf c).freshInit = s.freshInit := rfl
@[simp] theorem skipIf_reg (s : State) (c : Bool) (r : RegIdx) : (s.skipIf c).reg r = s.reg r := rfl
@[simp] theorem skipIf_readByte (s : State) (c : Bool) (a : Nat) : (s.skipIf c).readByte a = s.readByte a := rfl
@[simp] theorem skipIf_readWord (s : State) (c : Bool) (a : Nat) : (s.skipIf c).readWord a = s.readWord a := rfl
@[simp] theorem skipIf_keys (s : State) (c : Bool) : (s.skipIf c).keys = s.keys := rfl
@[simp] theorem skipIf_rand (s : State) (c : Bool) : (s.skipIf c).rand = s.rand := rfl
@[simp] theorem skipIf_effAddr (s : State) (c : Bool) (n : Nat) : (s.skipIf c).effAddr n = s.effAddr n := rfl

/-! ### `raiseFault` -/

@[simp] theorem raiseFault_v (s : State) (f : FaultRecord) : (s.raiseFault f).v = s.v := rfl
@[simp] theorem raiseFault_i (s : State) (f : FaultRecord) : (s.raiseFault f).i = s.i := rfl
@[simp] theorem raiseFault_pc (s : State) (f : FaultRecord) : (s.raiseFault f).pc = s.pc := rfl
@[simp] theorem raiseFault_sp (s : State) (f : FaultRecord) : (s.raiseFault f).sp = s.sp := rfl
@[simp] theorem raiseFault_stack (s : State) (f : FaultRecord) : (s.raiseFault f).stack = s.stack := rfl
@[simp] theorem raiseFault_dt (s : State) (f : FaultRecord) : (s.raiseFault f).dt = s.dt := rfl
@[simp] theorem raiseFault_st (s : State) (f : FaultRecord) : (s.raiseFault f).st = s.st := rfl
@[simp] theorem raiseFault_fb (s : State) (f : FaultRecord) : (s.raiseFault f).fb = s.fb := rfl
@[simp] theorem raiseFault_redraw (s : State) (f : FaultRecord) : (s.raiseFault f).redraw = s.redraw := rfl
@[simp] theorem raiseFault_mem (s : State) (f : FaultRecord) : (s.raiseFault f).mem = s.mem := rfl
@[simp] theorem raiseFault_await (s : State) (f : FaultRecord) : (s.raiseFault f).await = s.await := rfl
@[simp] theorem raiseFault_fault (s : State) (f : FaultRecord) : (s.raiseFault f).fault = some f := rfl
@[simp] theorem raiseFault_params (s : State) (f : FaultRecord) : (s.raiseFault f).params = s.params := rfl
@[simp] theorem raiseFault_loadStatus (s : State) (f : FaultRecord) : (s.raiseFault f).loadStatus = s.loadStatus := rfl
@[simp] theorem raiseFault_script (s : State) (f : FaultRecord) : (s.raiseFault f).script = s.script := rfl
@[simp] theorem raiseFault_tick (s : State) (f : FaultRecord) : (s.raiseFault f).tick = s.tick := rfl
@[simp] theorem raiseFault_freshInit (s : State) (f : FaultRecord) : (s.raiseFault f).freshInit = s.freshInit := rfl
@[simp] theorem raiseFault_reg (s : State) (f : FaultRecord) (r : RegIdx) : (s.raiseFault f).reg r = s.reg r := rfl
@[simp] theorem raiseFault_readByte (s : State) (f : FaultRecord) (a : Nat) : (s.raiseFault f).readByte a = s.readByte a := rfl
@[simp] theorem raiseFault_readWord (s : State) (f : FaultRecord) (a : Nat) : (s.raiseFault f).readWord a = s.readWord a := rfl
@[simp] theorem raiseFault_keys (s : State) (f : FaultRecord) : (s.raiseFault f).keys = s.keys := rfl
@[simp] theorem raiseFault_rand (s : State) (f : FaultRecord) : (s.raiseFault f).rand = s.rand := rfl
@[simp] theorem raiseFault_effAddr (s : State) (f : FaultRecord) (n : Nat) : (s.raiseFault f).effAddr n = s.effAddr n := rfl

/-! ### `present` -/

@[simp] theorem present_v (s : State) (g : Framebuffer) : (s.present g).v = s.v := rfl
@[simp] theorem present_i (s : State) (g : Framebuffer) : (s.present g).i = s.i := rfl
@[simp] theorem present_pc (s : State) (g : Framebuffer) : (s.present g).pc = s.pc := rfl
@[simp] theorem present_sp (s : State) (g : Framebuffer) : (s.present g).sp = s.sp := rfl
@[simp] theorem present_stack (s : State) (g : Framebuffer) : (s.present g).stack = s.stack := rfl
@[simp] theorem present_dt (s : State) (g : Framebuffer) : (s.present g).dt = s.dt := rfl
@[simp] theorem present_st (s : State) (g : Framebuffer) : (s.present g).st = s.st := rfl
@[simp] theorem present_fb (s : State) (g : Framebuffer) : (s.present g).fb = g := rfl
@[simp] theorem present_redraw (s : State) (g : Framebuffer) : (s.present g).redraw = true := rfl
@[simp] theorem present_mem (s : State) (g : Framebuffer) : (s.present g).mem = s.mem := rfl
@[simp] theorem present_await (s : State) (g : Framebuffer) : (s.present g).await = s.await := rfl
@[simp] theorem present_fault (s : State) (g : Framebuffer) : (s.present g).fault = s.fault := rfl
@[simp] theorem present_params (s : State) (g : Framebuffer) : (s.present g).params = s.params := rfl
@[simp] theorem present_loadStatus (s : State) (g : Framebuffer) : (s.present g).loadStatus = s.loadStatus := rfl
@[simp] theorem present_script (s : State) (g : Framebuffer) : (s.present g).script = s.script := rfl
@[simp] theorem present_tick (s : State) (g : Framebuffer) : (s.present g).tick = s.tick := rfl
@[simp] theorem present_freshInit (s : State) (g : Framebuffer) : (s.present g).freshInit = s.freshInit := rfl
@[simp] theorem present_reg (s : State) (g : Framebuffer) (r : RegIdx) : (s.present g).reg r = s.reg r := rfl
@[simp] theorem present_readByte (s : State) (g : Framebuffer) (a : Nat) : (s.present g).readByte a = s.readByte a := rfl
@[simp] theorem present_readWord (s : State) (g : Framebuffer) (a : Nat) : (s.present g).readWord a = s.readWord a := rfl
@[simp] theorem present_keys (s : State) (g : Framebuffer) : (s.present g).keys = s.keys := rfl
@[simp] theorem present_rand (s : State) (g : Framebuffer) : (s.present g).rand = s.rand := rfl
@[simp] theorem present_effAddr (s : State) (g : Framebuffer) (n : Nat) : (s.present g).effAddr n = s.effAddr n := rfl

/-! ### `timerStep` -/

@[simp] theorem timerStep_v (s : State) : s.timerStep.v = s.v := rfl
@[simp] theorem timerStep_i (s : State) : s.timerStep.i = s.i := rfl
@[simp] theorem timerStep_pc (s : State) : s.timerStep.pc = s.pc := rfl
@[simp] theorem timerStep_sp (s : State) : s.timerStep.sp = s.sp := rfl
@[simp] theorem timerStep_stack (s : State) : s.timerStep.stack = s.stack := rfl
@[simp] theorem timerStep_dt (s : State) : s.timerStep.dt = countDown s.dt := rfl
@[simp] theorem timerStep_st (s : State) : s.timerStep.st = countDown s.st := rfl
@[simp] theorem timerStep_fb (s : State) : s.timerStep.fb = s.fb := rfl
@[simp] theorem timerStep_redraw (s : State) : s.timerStep.redraw = s.redraw := rfl
@[simp] theorem timerStep_mem (s : State) : s.timerStep.mem = s.mem := rfl
@[simp] theorem timerStep_await (s : State) : s.timerStep.await = s.await := rfl
@[simp] theorem timerStep_fault (s : State) : s.timerStep.fault = s.fault := rfl
@[simp] theorem timerStep_params (s : State) : s.timerStep.params = s.params := rfl
@[simp] theorem timerStep_loadStatus (s : State) : s.timerStep.loadStatus = s.loadStatus := rfl
@[simp] theorem timerStep_script (s : State) : s.timerStep.script = s.script := rfl
@[simp] theorem timerStep_tick (s : State) : s.timerStep.tick = s.tick := rfl
@[simp] theorem timerStep_freshInit (s : State) : s.timerStep.freshInit = s.freshInit := rfl
@[simp] theorem timerStep_reg (s : State) (r : RegIdx) : s.timerStep.reg r = s.reg r := rfl
@[simp] theorem timerStep_readByte (s : State) (a : Nat) : s.timerStep.readByte a = s.readByte a := rfl
@[simp] theorem timerStep_readWord (s : State) (a : Nat) : s.timerStep.readWord a = s.readWord a := rfl
@[simp] theorem timerStep_keys (s : State) : s.timerStep.keys = s.keys := rfl
@[simp] theorem timerStep_rand (s : State) : s.timerStep.rand = s.rand := rfl
@[simp] theorem timerStep_effAddr (s : State) (n : Nat) : s.timerStep.effAddr n = s.effAddr n := rfl

end Sys2Proof.Machine.Laws
end

