-- ==== Sys2Proof/Laws/Ops.lean ====
section
/-! SUPPORT. One lemma for each shared operation that says everything it can do. -/

namespace Sys2Proof.Machine.Laws

/-! ### Registers -/

theorem setReg_reg (s : State) (x r : RegIdx) (b : Byte) :
    (s.setReg x b).reg r = if r = x then b else s.reg r := by
  simp only [State.setReg, State.reg, Fin.getElem_fin, Vector.getElem_set, Fin.ext_iff, eq_comm]

@[simp] theorem setReg_reg_self (s : State) (x : RegIdx) (b : Byte) : (s.setReg x b).reg x = b := by
  simp [setReg_reg]

theorem setReg_reg_ne (s : State) {x r : RegIdx} (b : Byte) (h : r ≠ x) :
    (s.setReg x b).reg r = s.reg r := by simp [setReg_reg, h]

theorem setLowRegs_reg (s : State) (t : List Byte) (r : RegIdx) :
    (s.setLowRegs t).reg r = (t[r.val]?).getD (s.reg r) := by
  simp [State.setLowRegs, State.reg]

@[simp] theorem lowRegs_length (s : State) (x : RegIdx) : (s.lowRegs x).length = x.val + 1 := by
  simp [State.lowRegs]

theorem lowRegs_getElem (s : State) (x : RegIdx) (k : Nat) (h : k < (s.lowRegs x).length) :
    (s.lowRegs x)[k] = s.reg ⟨k, by simp at h; omega⟩ := by
  simp [State.lowRegs, State.reg]

/-- The registers settle the register file. -/
theorem v_ext (s t : State) (h : ∀ r, t.reg r = s.reg r) : t.v = s.v := by
  ext k hk : 1
  exact h ⟨k, hk⟩

/-! ### The end of a meaning -/

@[simp] theorem commit_ok (s t : State) : s.commit (.ok t) = .next t := rfl

@[simp] theorem commit_error (s : State) (f : FaultRecord) :
    s.commit (.error f) = .next (s.raiseFault f) := rfl

/-- `commit` always answers a next state: the committed one, or the start with the fault taken. -/
theorem commit_cases (s : State) (r : Except FaultRecord State) :
    (∃ t, r = .ok t ∧ s.commit r = .next t) ∨
      ∃ f, r = .error f ∧ s.commit r = .next (s.raiseFault f) := by
  cases r with
  | ok t => exact .inl ⟨t, rfl, rfl⟩
  | error f => exact .inr ⟨f, rfl, rfl⟩

/-! ### The stack -/

theorem push_of_lt (s : State) (a : Word) (h : s.sp.val < 16) :
    s.push a =
      some { s with stack := s.stack.set s.sp.val a h, sp := ⟨s.sp.val + 1, by omega⟩ } := by
  simp [State.push, h]

theorem push_full (s : State) (a : Word) (h : s.sp.val = 16) : s.push a = none := by
  simp [State.push, h]

theorem pop_of_pos (s : State) (h : 0 < s.sp.val) :
    s.pop = some ({ s with sp := ⟨s.sp.val - 1, by omega⟩ }, s.stack[s.sp.val - 1]) := by
  simp [State.pop, h]

theorem pop_empty (s : State) (h : s.sp.val = 0) : s.pop = none := by
  simp [State.pop, h]

/-! ### Memory -/

theorem firstFault_eq_none (check : Nat → Option FaultRecord) (a n : Nat) :
    firstFault check a n = none ↔ ∀ j < n, check (a + j) = none := by
  simp [firstFault, List.findSome?_eq_none_iff]

/-- The fault reported is that of the first failing byte in increasing address order (R79). -/
theorem firstFault_eq_some (check : Nat → Option FaultRecord) (a n : Nat) (f : FaultRecord) :
    firstFault check a n = some f ↔
      ∃ j < n, check (a + j) = some f ∧ ∀ k < j, check (a + k) = none := by
  induction n with
  | zero => simp [firstFault]
  | succ n ih =>
    have hstep : firstFault check a (n + 1) = (firstFault check a n).or (check (a + n)) := by
      simp [firstFault, List.range_succ, List.findSome?_append]
    rw [hstep]
    cases hn : firstFault check a n with
    | some g =>
      rw [hn] at ih
      rw [Option.some_or, ih]
      constructor
      · rintro ⟨j, hj, h⟩; exact ⟨j, by omega, h⟩
      · rintro ⟨j, hj, h1, h2⟩
        refine ⟨j, ?_, h1, h2⟩
        rcases Nat.lt_succ_iff_lt_or_eq.mp hj with h | h
        · exact h
        · subst h
          rw [(firstFault_eq_none check a j).mpr h2] at hn
          cases hn
    | none =>
      rw [Option.none_or]
      have hall := (firstFault_eq_none check a n).mp hn
      constructor
      · intro h; exact ⟨n, by omega, h, hall⟩
      · rintro ⟨j, hj, h1, -⟩
        rcases Nat.lt_succ_iff_lt_or_eq.mp hj with h | h
        · rw [hall j h] at h1; cases h1
        · exact h ▸ h1

theorem checkRead_eq_none (a : Nat) : checkRead a = none ↔ a ≤ 0xFFF := by
  unfold checkRead; split_ifs <;> simp_all

theorem checkWrite_eq_none (p : Params) (a : Nat) :
    checkWrite p a = none ↔ a ≤ 0xFFF ∧ (a ≤ 0x04F → p.fontWrite = .allow) := by
  unfold checkWrite
  cases hp : p.fontWrite <;> split_ifs <;> simp_all

/-- `loadBytes` reads all its bytes or reports the first failing one. -/
theorem loadBytes_eq (s : State) (a n : Nat) :
    s.loadBytes a n =
      match firstFault checkRead a n with
      | some f => .error f
      | none => .ok ((List.range n).map (fun j => s.readByte (a + j))) := rfl

theorem loadBytes_ok (s : State) (a n : Nat) (h : ∀ j < n, a + j ≤ 0xFFF) :
    s.loadBytes a n = .ok ((List.range n).map (fun j => s.readByte (a + j))) := by
  rw [loadBytes_eq, (firstFault_eq_none _ _ _).mpr fun j hj => (checkRead_eq_none _).mpr (h j hj)]

/-- `storeBytes` checks every byte before it writes any, and then writes them all. -/
theorem storeBytes_ok (s : State) (a : Nat) (bs : List Byte)
    (h : ∀ j < bs.length, checkWrite s.params (a + j) = none) :
    s.storeBytes a bs = .ok { s with mem := Memory.writeList s.params s.mem a bs } := by
  unfold State.storeBytes
  rw [(firstFault_eq_none _ _ _).mpr h]

/-- What `storeBytes` can do: write every byte of a range whose addresses all pass, or report one that fails. -/
theorem storeBytes_cases (s : State) (a : Nat) (bs : List Byte) :
    (s.storeBytes a bs = .ok { s with mem := Memory.writeList s.params s.mem a bs } ∧
        ∀ j < bs.length, checkWrite s.params (a + j) = none) ∨
      ∃ f, s.storeBytes a bs = .error f ∧ firstFault (checkWrite s.params) a bs.length = some f := by
  unfold State.storeBytes
  cases h : firstFault (checkWrite s.params) a bs.length with
  | none => exact .inl ⟨rfl, (firstFault_eq_none _ _ _).mp h⟩
  | some f => exact .inr ⟨f, rfl, rfl⟩

theorem fetch_ok (s : State) (h : s.pc.toNat ≤ 0xFFE) : s.fetch = .ok (s.readWord s.pc.toNat) := by
  simp [State.fetch, Nat.not_lt.mpr h]

theorem fetch_error (s : State) (h : 0xFFE < s.pc.toNat) :
    s.fetch = .error ⟨.fetchOutOfRange, s.pc.toNat⟩ := by
  simp [State.fetch, h]

/-! ### Timers -/

theorem countDown_toNat (t : Byte) : (countDown t).toNat = t.toNat - 1 := by
  unfold countDown
  split_ifs with h
  · have h1 : (1 : Byte) ≤ t := BitVec.le_def.mpr h
    rw [BitVec.toNat_sub_of_le h1]; rfl
  · omega

/-! ### Keys -/

theorem keyIndex_ok (s : State) (x : RegIdx) (h : (s.reg x).toNat < 16) :
    s.keyIndex x = .ok ⟨(s.reg x).toNat, h⟩ := by
  simp [State.keyIndex, show ¬ 0x0F < (s.reg x).toNat by omega]

theorem keyIndex_error (s : State) (x : RegIdx) (h : 0x0F < (s.reg x).toNat) :
    s.keyIndex x = .error ⟨.keyIndexOutOfRange, (s.reg x).toNat⟩ := by
  simp [State.keyIndex, h]

theorem lowestKey_eq_none (keys : Keypad) : lowestKey keys = none ↔ ∀ k : Fin 16, keys[k] = false := by
  simp [lowestKey, List.find?_eq_none]

/-- `lowestKey` is the least pressed key. -/
theorem lowestKey_eq_some (keys : Keypad) (k : Fin 16) :
    lowestKey keys = some k ↔ keys[k] = true ∧ ∀ j < k, keys[j] = false := by
  unfold lowestKey
  rw [List.find?_eq_some_iff_getElem]
  constructor
  · rintro ⟨hk, i, hi, rfl, h⟩
    refine ⟨hk, fun j hj => ?_⟩
    have := h j.val (by simpa [Fin.lt_def] using hj)
    simpa using this
  · rintro ⟨hk, h⟩
    refine ⟨hk, k.val, by simp, by simp, fun j hj => ?_⟩
    have := h ⟨j, by omega⟩ hj
    simpa using this

/-! ### Flags -/

/-- `writeFr` away from VF: the result in V[x], the flag in VF, every other register as before (R207). -/
theorem writeFr_reg (s : State) (x r : RegIdx) (res flag : Byte) (h : x ≠ vf) :
    (s.writeFr x res flag).reg r = if r = vf then flag else if r = x then res else s.reg r := by
  simp [State.writeFr, h, setReg_reg]

/-- `writeFr` onto VF: VF_DEST_POLICY settles VF, every other register is as before (R207). -/
theorem writeFr_reg_vf (s : State) (r : RegIdx) (res flag : Byte) :
    (s.writeFr vf res flag).reg r = if r = vf then s.vfDestValue res flag else s.reg r := by
  simp [State.writeFr, setReg_reg]

/-- `writeFr` changes general registers only. -/
theorem writeFr_eq (s : State) (x : RegIdx) (res flag : Byte) :
    s.writeFr x res flag = { s with v := (s.writeFr x res flag).v } := by
  unfold State.writeFr
  split_ifs <;> rfl

/-! ### The framebuffer -/

theorem setPixel_pixel (fb : Framebuffer) (px qx : Fin 64) (py qy : Fin 32) (b : Bool) :
    Framebuffer.pixel (Framebuffer.setPixel fb px py b) qx qy =
      if qx = px ∧ qy = py then b else Framebuffer.pixel fb qx qy := by
  simp only [Framebuffer.pixel, Framebuffer.setPixel, Fin.getElem_fin, Vector.getElem_set, Fin.ext_iff]
  by_cases hy : py.val = qy.val <;> by_cases hx : px.val = qx.val <;>
    simp [hy, hx, eq_comm]

@[simp] theorem blank_pixel (px : Fin 64) (py : Fin 32) :
    Framebuffer.pixel Framebuffer.blank px py = false := by
  simp [Framebuffer.pixel, Framebuffer.blank]

/-- The pixels settle the framebuffer. -/
theorem fb_ext (f g : Framebuffer) (h : ∀ px py, Framebuffer.pixel f px py = Framebuffer.pixel g px py) :
    f = g := by
  ext r hr c hc : 2
  exact h ⟨c, hc⟩ ⟨r, hr⟩

/-- One bit of the blit, pixel by pixel. -/
theorem blitBit_pixel (cx cy : Byte) (r : Nat) (row : Byte) (acc : Framebuffer × Bool) (b : Nat)
    (px : Fin 64) (py : Fin 32) :
    Framebuffer.pixel (blitBit cx cy r row acc b).1 px py =
      if px = pixelColumn cx b ∧ py = pixelRow cy r then
        (Framebuffer.pixel acc.1 px py ^^ spriteBit row b)
      else Framebuffer.pixel acc.1 px py := by
  simp only [blitBit, setPixel_pixel]
  split_ifs with h
  · rw [h.1, h.2]
  · rfl

end Sys2Proof.Machine.Laws
end

