-- ==== Sys2Proof/Laws/Draw.lean ====
section
/-! SUPPORT. What the sprite blitter of Dxyn does to a pixel and to the collision, as one statement about all its rows and
bits (R271 to R273). -/

namespace Sys2Proof.Machine.Laws

/-- The eight bits of a row land in eight different columns. -/
theorem pixelColumn_inj (cx : Byte) {b c : Nat} (hb : b < 8) (hc : c < 8)
    (h : pixelColumn cx b = pixelColumn cx c) : b = c := by
  have := congrArg Fin.val h
  simp only [pixelColumn, Fin.ofNat] at this
  omega

/-- Up to 32 rows land in different rows of the grid. -/
theorem pixelRow_inj (cy : Byte) {r q : Nat} (hr : r < 32) (hq : q < 32)
    (h : pixelRow cy r = pixelRow cy q) : r = q := by
  have := congrArg Fin.val h
  simp only [pixelRow, Fin.ofNat] at this
  omega

/-- What one row of the blit does to a pixel and to the collision, over any part of the row's bits. -/
theorem foldl_blitBit (cx cy : Byte) (r : Nat) (row : Byte) (bits : List Nat) (hn : bits.Nodup)
    (h8 : ∀ b ∈ bits, b < 8) (acc : Framebuffer × Bool) :
    (∀ px py, Framebuffer.pixel (bits.foldl (blitBit cx cy r row) acc).1 px py =
      (Framebuffer.pixel acc.1 px py ^^
        decide (∃ b ∈ bits, px = pixelColumn cx b ∧ py = pixelRow cy r ∧ spriteBit row b = true))) ∧
    ((bits.foldl (blitBit cx cy r row) acc).2 = true ↔
      acc.2 = true ∨ ∃ b ∈ bits, spriteBit row b = true ∧
        Framebuffer.pixel acc.1 (pixelColumn cx b) (pixelRow cy r) = true) := by
  induction bits generalizing acc with
  | nil => simp
  | cons c bits ih =>
    obtain ⟨hc, hn⟩ := List.nodup_cons.mp hn
    have h8c := h8 c (by simp)
    have h8' : ∀ b ∈ bits, b < 8 := fun b hb => h8 b (by simp [hb])
    have hne : ∀ b ∈ bits, pixelColumn cx b ≠ pixelColumn cx c := fun b hb he =>
      hc (pixelColumn_inj cx (h8' b hb) h8c he ▸ hb)
    obtain ⟨ih1, ih2⟩ := ih hn h8' (blitBit cx cy r row acc c)
    refine ⟨fun px py => ?_, ?_⟩
    · rw [List.foldl_cons, ih1, blitBit_pixel]
      by_cases hp : px = pixelColumn cx c ∧ py = pixelRow cy r
      · obtain ⟨rfl, rfl⟩ := hp
        have : ¬ ∃ b ∈ bits, pixelColumn cx c = pixelColumn cx b ∧ pixelRow cy r = pixelRow cy r ∧
            spriteBit row b = true := fun ⟨b, hb, he, _⟩ => hne b hb he.symm
        rw [decide_eq_false this, Bool.xor_false, if_pos ⟨rfl, rfl⟩]
        have : (∃ b ∈ c :: bits, pixelColumn cx c = pixelColumn cx b ∧ pixelRow cy r = pixelRow cy r ∧
            spriteBit row b = true) ↔ spriteBit row c = true :=
          ⟨fun ⟨b, hb, he, _, hs⟩ => by
            rcases List.mem_cons.mp hb with rfl | hb
            · exact hs
            · exact absurd he.symm (hne b hb), fun h => ⟨c, by simp, rfl, rfl, h⟩⟩
        cases hb : spriteBit row c
        · rw [decide_eq_false (fun h => by simp [this.mp h] at hb)]
        · rw [decide_eq_true (this.mpr hb)]
      · have : (∃ b ∈ c :: bits, px = pixelColumn cx b ∧ py = pixelRow cy r ∧ spriteBit row b = true) ↔
            ∃ b ∈ bits, px = pixelColumn cx b ∧ py = pixelRow cy r ∧ spriteBit row b = true := by
          simp only [List.mem_cons, exists_eq_or_imp]
          exact or_iff_right fun h => hp ⟨h.1, h.2.1⟩
        rw [decide_eq_decide.mpr this, if_neg hp]
    · rw [List.foldl_cons, ih2]
      have hpix : ∀ b ∈ bits, Framebuffer.pixel (blitBit cx cy r row acc c).1 (pixelColumn cx b) (pixelRow cy r) =
          Framebuffer.pixel acc.1 (pixelColumn cx b) (pixelRow cy r) := fun b hb => by
        rw [blitBit_pixel, if_neg fun h => hne b hb h.1]
      simp only [List.mem_cons, exists_eq_or_imp]
      have : (∃ b ∈ bits, spriteBit row b = true ∧
          Framebuffer.pixel (blitBit cx cy r row acc c).1 (pixelColumn cx b) (pixelRow cy r) = true) ↔
          ∃ b ∈ bits, spriteBit row b = true ∧
            Framebuffer.pixel acc.1 (pixelColumn cx b) (pixelRow cy r) = true :=
        exists_congr fun b => and_congr_right fun hb => by rw [hpix b hb]
      rw [this]
      simp [blitBit, or_assoc]

/-- What the rows of the blit from row r on do to a pixel and to the collision. -/
theorem blitRows_spec (cx cy : Byte) (r : Nat) (rows : List Byte) (hr : r + rows.length ≤ 32)
    (acc : Framebuffer × Bool) :
    (∀ px py, Framebuffer.pixel (blitRows cx cy r rows acc).1 px py =
      (Framebuffer.pixel acc.1 px py ^^
        decide (∃ (j : Nat) (h : j < rows.length) (b : Nat), b < 8 ∧ px = pixelColumn cx b ∧
          py = pixelRow cy (r + j) ∧ spriteBit rows[j] b = true))) ∧
    ((blitRows cx cy r rows acc).2 = true ↔
      acc.2 = true ∨ ∃ (j : Nat) (h : j < rows.length) (b : Nat), b < 8 ∧ spriteBit rows[j] b = true ∧
        Framebuffer.pixel acc.1 (pixelColumn cx b) (pixelRow cy (r + j)) = true) := by
  induction rows generalizing r acc with
  | nil => simp [blitRows]
  | cons row rows ih =>
    simp only [List.length_cons] at hr
    obtain ⟨b1, b2⟩ := foldl_blitBit cx cy r row (List.range 8) List.nodup_range (by simp) acc
    obtain ⟨ih1, ih2⟩ := ih (r + 1) (by omega) (blitRow cx cy r row acc)
    have hrow : ∀ j < rows.length, pixelRow cy (r + 1 + j) ≠ pixelRow cy r := fun j hj he => by
      have := pixelRow_inj cy (by omega) (by omega) he
      omega
    -- the first row of the list, then the others
    have split : ∀ P : Nat → Byte → Nat → Prop,
        (∃ (j : Nat) (h : j < (row :: rows).length) (b : Nat), P (r + j) (row :: rows)[j] b) ↔
          (∃ b, P r row b) ∨ ∃ (j : Nat) (h : j < rows.length) (b : Nat), P (r + 1 + j) rows[j] b := by
      intro P
      constructor
      · rintro ⟨j, hj, b, h⟩
        cases j with
        | zero => exact .inl ⟨b, h⟩
        | succ j => exact .inr ⟨j, by simpa using hj, b, by simpa [Nat.add_assoc, Nat.add_comm 1] using h⟩
      · rintro (⟨b, h⟩ | ⟨j, hj, b, h⟩)
        · exact ⟨0, by simp, b, h⟩
        · exact ⟨j + 1, by simpa using hj, b, by simpa [Nat.add_assoc, Nat.add_comm 1] using h⟩
    refine ⟨fun px py => ?_, ?_⟩
    · rw [blitRows, ih1]
      unfold blitRow
      rw [b1]
      have := split fun q w b => b < 8 ∧ px = pixelColumn cx b ∧ py = pixelRow cy q ∧ spriteBit w b = true
      simp only [this, List.mem_range]
      by_cases h1 : ∃ b, b < 8 ∧ px = pixelColumn cx b ∧ py = pixelRow cy r ∧ spriteBit row b = true
      · have h2 : ¬ ∃ (j : Nat) (h : j < rows.length) (b : Nat), b < 8 ∧ px = pixelColumn cx b ∧
            py = pixelRow cy (r + 1 + j) ∧ spriteBit rows[j] b = true := by
          rintro ⟨j, hj, b, _, _, he, _⟩
          obtain ⟨_, _, _, he', _⟩ := h1
          exact hrow j hj (he.symm.trans he')
        simp [h1, h2]
      · simp only [h1, decide_false, Bool.xor_false, false_or]
    · rw [blitRows, ih2]
      have := split fun q w b => b < 8 ∧ spriteBit w b = true ∧
        Framebuffer.pixel acc.1 (pixelColumn cx b) (pixelRow cy q) = true
      rw [this]
      unfold blitRow
      rw [b2, or_assoc]
      simp only [List.mem_range]
      refine or_congr_right (or_congr_right ?_)
      refine exists_congr fun j => exists_congr fun hj => exists_congr fun b => and_congr_right fun _ =>
        and_congr_right fun _ => ?_
      rw [b1]
      have : ¬ ∃ c ∈ List.range 8, pixelColumn cx b = pixelColumn cx c ∧
          pixelRow cy (r + 1 + j) = pixelRow cy r ∧ spriteBit row c = true :=
        fun ⟨_, _, _, he, _⟩ => hrow j hj he
      simp [hrow j hj]

end Sys2Proof.Machine.Laws
end

