-- ==== Sys2Proof/Laws/Encoding.lean ====
section
/-! SUPPORT. What each field of a packed word is: the small lemmas about `packNNN`, `packXKK` and `packXYN`. -/

namespace Sys2Proof.Laws

@[simp] theorem fieldF_packNNN (f : BitVec 4) (nnn : BitVec 12) : fieldF (packNNN f nnn) = f := by
  ext i h
  simp only [fieldF, packNNN, BitVec.getElem_extractLsb', BitVec.getLsbD_append]
  simp [h]

@[simp] theorem fieldNNN_packNNN (f : BitVec 4) (nnn : BitVec 12) : fieldNNN (packNNN f nnn) = nnn := by
  ext i h
  simp only [fieldNNN, packNNN, BitVec.getElem_extractLsb', BitVec.getLsbD_append]
  simp [h]

@[simp] theorem fieldF_packXKK (f : BitVec 4) (x : RegIdx) (kk : Byte) : fieldF (packXKK f x kk) = f := by
  ext i h
  simp only [fieldF, packXKK, BitVec.getElem_extractLsb', BitVec.getLsbD_append]
  simp [h, show ¬ 12 + i < 8 by omega, show ¬ 12 + i - 8 < 4 by omega, show 12 + i - 8 - 4 = i by omega]

@[simp] theorem fieldX_packXKK (f : BitVec 4) (x : RegIdx) (kk : Byte) : fieldX (packXKK f x kk) = x := by
  have : (packXKK f x kk).extractLsb' 8 4 = BitVec.ofFin (w := 4) x := by
    ext i h
    simp only [packXKK, BitVec.getElem_extractLsb', BitVec.getLsbD_append]
    simp [h, show ¬ 8 + i < 8 by omega]
  simp [fieldX, this]

@[simp] theorem fieldKK_packXKK (f : BitVec 4) (x : RegIdx) (kk : Byte) : fieldKK (packXKK f x kk) = kk := by
  ext i h
  simp only [fieldKK, packXKK, BitVec.getElem_extractLsb', BitVec.getLsbD_append]
  simp [h]

@[simp] theorem fieldF_packXYN (f : BitVec 4) (x y : RegIdx) (n : BitVec 4) :
    fieldF (packXYN f x y n) = f := by
  ext i h
  simp only [fieldF, packXYN, BitVec.getElem_extractLsb', BitVec.getLsbD_append]
  simp [h, show ¬ 12 + i < 4 by omega, show ¬ 12 + i - 4 < 4 by omega, show ¬ 12 + i - 4 - 4 < 4 by omega,
    show 12 + i - 4 - 4 - 4 = i by omega]

@[simp] theorem fieldX_packXYN (f : BitVec 4) (x y : RegIdx) (n : BitVec 4) :
    fieldX (packXYN f x y n) = x := by
  have : (packXYN f x y n).extractLsb' 8 4 = BitVec.ofFin (w := 4) x := by
    ext i h
    simp only [packXYN, BitVec.getElem_extractLsb', BitVec.getLsbD_append]
    simp [h, show ¬ 8 + i < 4 by omega, show ¬ 8 + i - 4 < 4 by omega, show 8 + i - 4 - 4 = i by omega]
  simp [fieldX, this]

@[simp] theorem fieldY_packXYN (f : BitVec 4) (x y : RegIdx) (n : BitVec 4) :
    fieldY (packXYN f x y n) = y := by
  have : (packXYN f x y n).extractLsb' 4 4 = BitVec.ofFin (w := 4) y := by
    ext i h
    simp only [packXYN, BitVec.getElem_extractLsb', BitVec.getLsbD_append]
    simp [h, show ¬ 4 + i < 4 by omega]
  simp [fieldY, this]

@[simp] theorem fieldN_packXYN (f : BitVec 4) (x y : RegIdx) (n : BitVec 4) :
    fieldN (packXYN f x y n) = n := by
  ext i h
  simp only [fieldN, packXYN, BitVec.getElem_extractLsb', BitVec.getLsbD_append]
  simp [h]

/-- A word is its family, x, and kk. -/
theorem packXKK_fields (op : Word) : packXKK (fieldF op) (fieldX op) (fieldKK op) = op := by
  show op.extractLsb' 12 4 ++ op.extractLsb' 8 4 ++ op.extractLsb' 0 8 = op
  refine BitVec.eq_of_getLsbD_eq fun i h => ?_
  simp only [BitVec.getLsbD_append, BitVec.getLsbD_extractLsb']
  interval_cases i <;> simp

/-- A word is its family, x, y and n. -/
theorem packXYN_fields (op : Word) : packXYN (fieldF op) (fieldX op) (fieldY op) (fieldN op) = op := by
  show op.extractLsb' 12 4 ++ op.extractLsb' 8 4 ++ op.extractLsb' 4 4 ++ op.extractLsb' 0 4 = op
  refine BitVec.eq_of_getLsbD_eq fun i h => ?_
  simp only [BitVec.getLsbD_append, BitVec.getLsbD_extractLsb']
  interval_cases i <;> simp

/-- A word is its family and nnn. -/
theorem packNNN_fields (op : Word) : packNNN (fieldF op) (fieldNNN op) = op := by
  show op.extractLsb' 12 4 ++ op.extractLsb' 0 12 = op
  refine BitVec.eq_of_getLsbD_eq fun i h => ?_
  simp only [BitVec.getLsbD_append, BitVec.getLsbD_extractLsb']
  interval_cases i <;> simp

end Sys2Proof.Laws
end

