-- ==== Sys2Proof/Laws/HostState.lean ====
section
/-! SUPPORT. One lemma per field per update, for the updates of the host's ports. -/

namespace Sys2Proof.Machine.Laws

/-! ### `hostClearRedraw` -/

@[simp] theorem hostClearRedraw_v (s : State) : s.hostClearRedraw.v = s.v := rfl
@[simp] theorem hostClearRedraw_i (s : State) : s.hostClearRedraw.i = s.i := rfl
@[simp] theorem hostClearRedraw_pc (s : State) : s.hostClearRedraw.pc = s.pc := rfl
@[simp] theorem hostClearRedraw_sp (s : State) : s.hostClearRedraw.sp = s.sp := rfl
@[simp] theorem hostClearRedraw_stack (s : State) : s.hostClearRedraw.stack = s.stack := rfl
@[simp] theorem hostClearRedraw_dt (s : State) : s.hostClearRedraw.dt = s.dt := rfl
@[simp] theorem hostClearRedraw_st (s : State) : s.hostClearRedraw.st = s.st := rfl
@[simp] theorem hostClearRedraw_fb (s : State) : s.hostClearRedraw.fb = s.fb := rfl
@[simp] theorem hostClearRedraw_redraw (s : State) : s.hostClearRedraw.redraw = false := rfl
@[simp] theorem hostClearRedraw_mem (s : State) : s.hostClearRedraw.mem = s.mem := rfl
@[simp] theorem hostClearRedraw_await (s : State) : s.hostClearRedraw.await = s.await := rfl
@[simp] theorem hostClearRedraw_fault (s : State) : s.hostClearRedraw.fault = s.fault := rfl
@[simp] theorem hostClearRedraw_params (s : State) : s.hostClearRedraw.params = s.params := rfl
@[simp] theorem hostClearRedraw_loadStatus (s : State) : s.hostClearRedraw.loadStatus = s.loadStatus := rfl
@[simp] theorem hostClearRedraw_script (s : State) : s.hostClearRedraw.script = s.script := rfl
@[simp] theorem hostClearRedraw_tick (s : State) : s.hostClearRedraw.tick = s.tick := rfl
@[simp] theorem hostClearRedraw_freshInit (s : State) : s.hostClearRedraw.freshInit = s.freshInit := rfl
@[simp] theorem hostClearRedraw_reg (s : State) (r : RegIdx) : s.hostClearRedraw.reg r = s.reg r := rfl
@[simp] theorem hostClearRedraw_readByte (s : State) (a : Nat) : s.hostClearRedraw.readByte a = s.readByte a := rfl
@[simp] theorem hostClearRedraw_readWord (s : State) (a : Nat) : s.hostClearRedraw.readWord a = s.readWord a := rfl
@[simp] theorem hostClearRedraw_keys (s : State) : s.hostClearRedraw.keys = s.keys := rfl
@[simp] theorem hostClearRedraw_rand (s : State) : s.hostClearRedraw.rand = s.rand := rfl
@[simp] theorem hostClearRedraw_effAddr (s : State) (n : Nat) : s.hostClearRedraw.effAddr n = s.effAddr n := rfl

/-! ### `actionDone` -/

@[simp] theorem actionDone_v (s : State) (fresh : Bool) : (s.actionDone fresh).v = s.v := rfl
@[simp] theorem actionDone_i (s : State) (fresh : Bool) : (s.actionDone fresh).i = s.i := rfl
@[simp] theorem actionDone_pc (s : State) (fresh : Bool) : (s.actionDone fresh).pc = s.pc := rfl
@[simp] theorem actionDone_sp (s : State) (fresh : Bool) : (s.actionDone fresh).sp = s.sp := rfl
@[simp] theorem actionDone_stack (s : State) (fresh : Bool) : (s.actionDone fresh).stack = s.stack := rfl
@[simp] theorem actionDone_dt (s : State) (fresh : Bool) : (s.actionDone fresh).dt = s.dt := rfl
@[simp] theorem actionDone_st (s : State) (fresh : Bool) : (s.actionDone fresh).st = s.st := rfl
@[simp] theorem actionDone_fb (s : State) (fresh : Bool) : (s.actionDone fresh).fb = s.fb := rfl
@[simp] theorem actionDone_redraw (s : State) (fresh : Bool) : (s.actionDone fresh).redraw = s.redraw := rfl
@[simp] theorem actionDone_mem (s : State) (fresh : Bool) : (s.actionDone fresh).mem = s.mem := rfl
@[simp] theorem actionDone_await (s : State) (fresh : Bool) : (s.actionDone fresh).await = s.await := rfl
@[simp] theorem actionDone_fault (s : State) (fresh : Bool) : (s.actionDone fresh).fault = s.fault := rfl
@[simp] theorem actionDone_params (s : State) (fresh : Bool) : (s.actionDone fresh).params = s.params := rfl
@[simp] theorem actionDone_loadStatus (s : State) (fresh : Bool) : (s.actionDone fresh).loadStatus = s.loadStatus := rfl
@[simp] theorem actionDone_script (s : State) (fresh : Bool) : (s.actionDone fresh).script = s.script.tail := rfl
@[simp] theorem actionDone_tick (s : State) (fresh : Bool) : (s.actionDone fresh).tick = s.tick + 1 := rfl
@[simp] theorem actionDone_freshInit (s : State) (fresh : Bool) : (s.actionDone fresh).freshInit = fresh := rfl
@[simp] theorem actionDone_reg (s : State) (fresh : Bool) (r : RegIdx) : (s.actionDone fresh).reg r = s.reg r := rfl
@[simp] theorem actionDone_readByte (s : State) (fresh : Bool) (a : Nat) : (s.actionDone fresh).readByte a = s.readByte a := rfl
@[simp] theorem actionDone_readWord (s : State) (fresh : Bool) (a : Nat) : (s.actionDone fresh).readWord a = s.readWord a := rfl
@[simp] theorem actionDone_effAddr (s : State) (fresh : Bool) (n : Nat) : (s.actionDone fresh).effAddr n = s.effAddr n := rfl

end Sys2Proof.Machine.Laws
end

