-- ==== Sys2Proof/Laws/Step.lean ====
section
/-! SUPPORT. What a cycle and a step can do, said once. -/

namespace Sys2Proof.Machine.Laws

/-- The timer stage runs at the end of a cycle exactly when no fault is latched (R144, R145). -/
theorem endCycle_of_none (s : State) (h : s.fault = none) : s.endCycle = s.timerStep := by
  simp [State.endCycle, h]

theorem endCycle_of_some (s : State) (f : FaultRecord) (h : s.fault = some f) : s.endCycle = s := by
  simp [State.endCycle, h]

theorem endCycle_cases (s : State) :
    (s.fault = none ∧ s.endCycle = s.timerStep) ∨ (s.fault ≠ none ∧ s.endCycle = s) := by
  cases h : s.fault with
  | none => exact .inl ⟨rfl, endCycle_of_none s h⟩
  | some f => exact .inr ⟨by simp, endCycle_of_some s f h⟩

/-- A halted block's cycle (R313). -/
theorem cycle_halted (s : State) (h : s.halted) : s.cycle = .next s := by
  simp [State.cycle, Option.isSome_iff_ne_none.mpr h]

/-- A waiting block's cycle (R295). -/
theorem cycle_await (s : State) (x : RegIdx) (hf : s.fault = none) (ha : s.await = some x) :
    s.cycle = .next (s.awaitStep x).endCycle := by
  simp [State.cycle, hf, ha]

/-- A cycle whose fetch is out of range (R141). -/
theorem cycle_fetch_error (s : State) (hf : s.fault = none) (ha : s.await = none)
    (hp : 0xFFE < s.pc.toNat) :
    s.cycle = .next (s.raiseFault ⟨.fetchOutOfRange, s.pc.toNat⟩) := by
  simp [State.cycle, hf, ha, State.runNext, fetch_error s hp, State.endCycle]

/-- A cycle whose word is illegal (R142). -/
theorem cycle_unknown (s : State) (e : DecodeError) (hf : s.fault = none) (ha : s.await = none)
    (hp : s.pc.toNat ≤ 0xFFE) (hd : decode (s.readWord s.pc.toNat) = .error e) :
    s.cycle = .next (s.raiseFault ⟨.unknownOpcode, (s.readWord s.pc.toNat).toNat⟩) := by
  simp [State.cycle, hf, ha, State.runNext, fetch_ok s hp, State.runWord, hd, State.endCycle]

/-- A cycle that executes an instruction (R143). -/
theorem cycle_exec (s t : State) (i : Instr) (hf : s.fault = none) (ha : s.await = none)
    (hp : s.pc.toNat ≤ 0xFFE) (hd : decode (s.readWord s.pc.toNat) = .ok i) (he : exec i s = .next t) :
    s.cycle = .next t.endCycle := by
  simp [State.cycle, hf, ha, State.runNext, fetch_ok s hp, State.runWord, hd, he]

/-- The host's next action is a cycle exactly when the script is empty or begins with one. -/
theorem atCycle_iff (s : State) :
    s.atCycle ↔ s.script = [] ∨ ∃ keys rand rest, s.script = .cycle keys rand :: rest := by
  unfold State.atCycle
  cases h : s.script with
  | nil => simp
  | cons a rest => cases a <;> simp [HostAction.isCycle]

/-- A step at a cycle is that cycle and the host bookkeeping. -/
theorem step_atCycle (s t : State) (h : s.atCycle) (hc : s.cycle = .next t) :
    step s = .next (t.actionDone false) := by
  rcases (atCycle_iff s).mp h with hs | ⟨keys, rand, rest, hs⟩ <;> simp [step, State.perform, hs, hc]

theorem step_init (s : State) (rest : List HostAction) (h : s.script = .init :: rest) :
    step s = .next (s.hostInit.actionDone true) := by
  simp [step, State.perform, h]

theorem step_load (s : State) (rom : List Byte) (rest : List HostAction)
    (h : s.script = .load rom :: rest) (hf : s.freshInit = true) :
    step s = .next ((s.hostLoad rom).actionDone false) := by
  simp [step, State.perform, h, hf]

theorem step_clearRedraw (s : State) (rest : List HostAction) (h : s.script = .clearRedraw :: rest) :
    step s = .next (s.hostClearRedraw.actionDone false) := by
  simp [step, State.perform, h]

/-- What a step that answers `next` has done: one of the host's other actions, or a cycle. -/
theorem step_cases (s t : State) (h : step s = .next t) :
    ((∃ rest, s.script = .init :: rest) ∧ t = s.hostInit.actionDone true) ∨
    ((∃ rom rest, s.script = .load rom :: rest ∧ t = (s.hostLoad rom).actionDone false) ∧
      s.freshInit = true) ∨
    ((∃ rest, s.script = .clearRedraw :: rest) ∧ t = s.hostClearRedraw.actionDone false) ∨
    (s.atCycle ∧ ∃ u, s.cycle = .next u ∧ t = u.actionDone false) := by
  have finish : ∀ r : Result, (match r with
      | .next u => .next (u.actionDone false) | .fault e => .fault e | .refused e => .refused e : Result) =
        .next t → ∃ u, r = .next u ∧ t = u.actionDone false := by
    intro r hr
    cases r with
    | next u => exact ⟨u, rfl, by simpa using hr.symm⟩
    | fault e => cases e
    | refused e => cases hr
  unfold step State.perform at h
  cases hs : s.script with
  | nil =>
    rw [hs] at h
    exact .inr (.inr (.inr ⟨(atCycle_iff s).mpr (.inl hs), finish _ h⟩))
  | cons a rest =>
    rw [hs] at h
    cases a with
    | init => exact .inl ⟨⟨rest, rfl⟩, by simpa using h.symm⟩
    | load rom =>
      by_cases hf : s.freshInit = true
      · exact .inr (.inl ⟨⟨rom, rest, rfl, by simpa [hf] using h.symm⟩, hf⟩)
      · simp [hf] at h
    | cycle keys rand =>
      exact .inr (.inr (.inr ⟨(atCycle_iff s).mpr (.inr ⟨keys, rand, rest, hs⟩), finish _ h⟩))
    | clearRedraw => exact .inr (.inr (.inl ⟨⟨rest, rfl⟩, by simpa using h.symm⟩))

end Sys2Proof.Machine.Laws
end

