-- ==== Sys2Proof/Laws/Exec.lean ====
section
/-! SUPPORT. What executing one instruction and running one cycle can do, said once: the inversion lemmas that the
whole-machine statements go through. -/

namespace Sys2Proof.Machine.Laws

/-! ### The end of a meaning, inverted -/

theorem commit_inv {s t : State} {r : Except FaultRecord State} (h : s.commit r = .next t) :
    r = .ok t ∨ ∃ f, r = .error f ∧ t = s.raiseFault f := by
  cases r with
  | ok u => exact .inl (by simpa using h)
  | error f => exact .inr ⟨f, rfl, by simpa using h.symm⟩

theorem map_inv {α β : Type} {r : Except FaultRecord α} {g : α → β} {b : β} (h : r.map g = .ok b) :
    ∃ a, r = .ok a ∧ b = g a := by
  cases r with
  | ok a => exact ⟨a, rfl, by simpa [Except.map] using h.symm⟩
  | error f => cases h

/-- A meaning that maps a checked access commits what the access gave, or takes its fault. -/
theorem commit_map_inv {α : Type} {s t : State} {r : Except FaultRecord α} {g : α → State}
    (h : s.commit (r.map g) = .next t) : (∃ a, r = .ok a ∧ t = g a) ∨ ∃ f, r = .error f ∧ t = s.raiseFault f := by
  cases r with
  | ok a => exact .inl ⟨a, rfl, by simpa [Except.map] using h.symm⟩
  | error f => exact .inr ⟨f, rfl, by simpa [Except.map] using h.symm⟩

/-- A meaning that stores bytes and advances writes them all, at addresses that all pass, or takes the fault. -/
theorem commit_store_inv {s t : State} {a : Nat} {bs : List Byte}
    (h : s.commit ((s.storeBytes a bs).map State.advance) = .next t) :
    (t = ({ s with mem := Memory.writeList s.params s.mem a bs } : State).advance ∧
        ∀ j < bs.length, checkWrite s.params (a + j) = none) ∨ ∃ f, t = s.raiseFault f := by
  rcases commit_map_inv h with ⟨u, hu, rfl⟩ | ⟨f, -, rfl⟩
  · rcases storeBytes_cases s a bs with ⟨h1, h2⟩ | ⟨f, h1, -⟩ <;> rw [h1] at hu <;> cases hu
    exact .inl ⟨rfl, h2⟩
  · exact .inr ⟨f, rfl⟩

/-- What Dxyn writes, field by field. -/
theorem drawSprite_eq (s : State) (x y : RegIdx) (rows : List Byte) :
    s.drawSprite x y rows = { s with
      fb := (blit (s.reg x) (s.reg y) rows s.fb).1
      redraw := true
      v := (s.setReg vf (collisionFlag (blit (s.reg x) (s.reg y) rows s.fb).2)).v
      pc := s.pc + 2 } := rfl

/-! ### The program counter -/

theorem pc_add_two (s : State) (h : s.pc.toNat ≤ 0xFFE) : (s.pc + 2).toNat = s.pc.toNat + 2 := by
  rw [BitVec.toNat_add]; simp; omega

theorem pc_add_four (s : State) (h : s.pc.toNat ≤ 0xFFE) : (s.pc + 4).toNat = s.pc.toNat + 4 := by
  rw [BitVec.toNat_add]; simp; omega

theorem skipIf_pc_cases (s : State) (c : Bool) :
    (s.skipIf c).pc = s.pc + 2 ∨ (s.skipIf c).pc = s.pc + 4 := by
  cases c
  · exact .inl rfl
  · exact .inr rfl

theorem advance_pc_le (s : State) (h : s.pc.toNat ≤ 0xFFE) : s.advance.pc.toNat ≤ 0x10FE := by
  show (s.pc + 2).toNat ≤ _
  have := pc_add_two s h
  omega

theorem skipIf_pc_le (s : State) (c : Bool) (h : s.pc.toNat ≤ 0xFFE) : (s.skipIf c).pc.toNat ≤ 0x10FE := by
  have := pc_add_two s h
  have := pc_add_four s h
  rcases skipIf_pc_cases s c with e | e <;> rw [e] <;> omega

theorem target_toNat (nnn : BitVec 12) : (target nnn).toNat = nnn.toNat := by
  simp [target, zext16]; omega

theorem jpV0_toNat (s : State) (nnn : BitVec 12) :
    (target nnn + zext16 (s.reg 0)).toNat = nnn.toNat + (s.reg 0).toNat := by
  rw [BitVec.toNat_add, target_toNat]
  simp [zext16]; omega

/-! ### What an instruction keeps -/

/-- What an executed instruction keeps when it does not fault, and the few values it gives outside the general
registers, memory and PC. -/
structure Frame (i : Instr) (s t : State) : Prop where
  fault      : t.fault = s.fault
  params     : t.params = s.params
  loadStatus : t.loadStatus = s.loadStatus
  script     : t.script = s.script
  tick       : t.tick = s.tick
  freshInit  : t.freshInit = s.freshInit
  await      : t.await = s.await ∨ ∃ x, i = .ldXK x ∧ t = { s with await := some x }
  dt         : (∀ x, i ≠ .ldDtX x) → t.dt = s.dt
  dt_set     : ∀ x, i = .ldDtX x → t.dt = s.reg x
  st         : (∀ x, i ≠ .ldStX x) → t.st = s.st
  st_set     : ∀ x, i = .ldStX x → t.st = s.reg x
  mem        : (∀ x, i ≠ .bcd x) → (∀ x, i ≠ .store x) → t.mem = s.mem
  stack      : (∀ nnn, i ≠ .call nnn) → i ≠ .ret → t.sp = s.sp ∧ t.stack = s.stack
  fb         : i ≠ .cls → (∀ x y n, i ≠ .drw x y n) → t.fb = s.fb ∧ t.redraw = s.redraw
  redraw     : (i = .cls ∨ ∃ x y n, i = .drw x y n) → t.redraw = true
  index      : (∀ n, i ≠ .ldI n) → (∀ x, i ≠ .addIX x) → (∀ x, i ≠ .ldFX x) → t.i = s.i

/-- The meanings in terms of the shared operations. -/
theorem exec_frame (i : Instr) (s t : State) (h : exec i s = .next t) :
    Frame i s t ∨ ∃ f, mayFault i ∧ t = s.raiseFault f := by
  cases i <;> simp only [exec, execCls, execRet, execJp, execCall, execSeImm, execSneImm, execSeReg, execSneReg,
    execJpV0, execLdImm, execAddImm, execMov, execOr, execAnd, execXor, execAdd, execSub, execShr, execSubn,
    execShl, execRnd, State.writeResult, State.writeFlagged, execLdI, execAddIX, execLdFX, execBcd, execStore,
    execLoad, execDrw, execSkp, execSknp, execLdXDt, execLdXK, execLdDtX, execLdStX] at h
  case ret =>
    by_cases hs : 0 < s.sp.val
    · rw [pop_of_pos s hs] at h; cases h
      exact .inl (by constructor <;> simp)
    · rw [pop_empty s (by omega)] at h; cases h
      exact .inr ⟨_, trivial, rfl⟩
  case call nnn =>
    by_cases hs : s.sp.val < 16
    · rw [push_of_lt s _ hs] at h; cases h
      exact .inl (by constructor <;> simp)
    · rw [push_full s _ (by omega)] at h; cases h
      exact .inr ⟨_, trivial, rfl⟩
  case bcd x =>
    rcases commit_store_inv h with ⟨rfl, -⟩ | ⟨f, rfl⟩
    · exact .inl (by constructor <;> simp)
    · exact .inr ⟨f, trivial, rfl⟩
  case store x =>
    rcases commit_store_inv h with ⟨rfl, -⟩ | ⟨f, rfl⟩
    · exact .inl (by constructor <;> simp)
    · exact .inr ⟨f, trivial, rfl⟩
  case load x =>
    rcases commit_map_inv h with ⟨a, -, rfl⟩ | ⟨f, -, rfl⟩
    · exact .inl (by constructor <;> simp)
    · exact .inr ⟨f, trivial, rfl⟩
  case drw x y n =>
    rcases commit_map_inv h with ⟨a, -, rfl⟩ | ⟨f, -, rfl⟩
    · rw [drawSprite_eq]; exact .inl (by constructor <;> simp)
    · exact .inr ⟨f, trivial, rfl⟩
  case skp x =>
    rcases commit_map_inv h with ⟨a, -, rfl⟩ | ⟨f, -, rfl⟩
    · exact .inl (by constructor <;> simp)
    · exact .inr ⟨f, trivial, rfl⟩
  case sknp x =>
    rcases commit_map_inv h with ⟨a, -, rfl⟩ | ⟨f, -, rfl⟩
    · exact .inl (by constructor <;> simp)
    · exact .inr ⟨f, trivial, rfl⟩
  case ldXK x =>
    cases h; left
    unfold State.keyWait
    split
    · constructor <;> simp
    · constructor <;> simp [State.setAwait]
  all_goals (cases h; left)
  all_goals (try rw [writeFr_eq])
  all_goals (constructor <;> simp)

/-- An instruction fetched from within the fetch range leaves PC at most 0x10FE, where every return address is at
most 0x1000 (R35, R146, R171, R178). -/
theorem exec_pc_le (i : Instr) (s t : State) (h : exec i s = .next t) (hp : s.pc.toNat ≤ 0xFFE)
    (hs : ∀ j : Fin 16, (s.stack[j]).toNat ≤ 0x1000) : t.pc.toNat ≤ 0x10FE := by
  have hadv : ∀ u : State, u.pc = s.pc → u.advance.pc.toNat ≤ 0x10FE := fun u hu =>
    advance_pc_le u (by rw [hu]; exact hp)
  have hstay : s.pc.toNat ≤ 0x10FE := by omega
  cases i <;> simp only [exec, execCls, execRet, execJp, execCall, execSeImm, execSneImm, execSeReg, execSneReg,
    execJpV0, execLdImm, execAddImm, execMov, execOr, execAnd, execXor, execAdd, execSub, execShr, execSubn,
    execShl, execRnd, State.writeResult, State.writeFlagged, execLdI, execAddIX, execLdFX, execBcd, execStore,
    execLoad, execDrw, execSkp, execSknp, execLdXDt, execLdXK, execLdDtX, execLdStX] at h
  case ret =>
    by_cases h0 : 0 < s.sp.val
    · rw [pop_of_pos s h0] at h; cases h
      have := hs ⟨s.sp.val - 1, by omega⟩
      simp only [setPc_pc]
      simp only [Fin.getElem_fin] at this
      omega
    · rw [pop_empty s (by omega)] at h; cases h; exact hstay
  case call nnn =>
    by_cases h0 : s.sp.val < 16
    · rw [push_of_lt s _ h0] at h; cases h
      simp only [setPc_pc, target_toNat]; omega
    · rw [push_full s _ (by omega)] at h; cases h; exact hstay
  case bcd x =>
    rcases commit_store_inv h with ⟨rfl, -⟩ | ⟨f, rfl⟩
    · exact hadv _ rfl
    · exact hstay
  case store x =>
    rcases commit_store_inv h with ⟨rfl, -⟩ | ⟨f, rfl⟩
    · exact hadv _ rfl
    · exact hstay
  case load x =>
    rcases commit_map_inv h with ⟨a, -, rfl⟩ | ⟨f, -, rfl⟩
    · exact hadv _ rfl
    · exact hstay
  case drw x y n =>
    rcases commit_map_inv h with ⟨a, -, rfl⟩ | ⟨f, -, rfl⟩
    · rw [drawSprite_eq]; exact advance_pc_le s hp
    · exact hstay
  case skp x =>
    rcases commit_map_inv h with ⟨a, -, rfl⟩ | ⟨f, -, rfl⟩
    · exact skipIf_pc_le s _ hp
    · exact hstay
  case sknp x =>
    rcases commit_map_inv h with ⟨a, -, rfl⟩ | ⟨f, -, rfl⟩
    · exact skipIf_pc_le s _ hp
    · exact hstay
  case ldXK x =>
    cases h
    unfold State.keyWait
    split
    · exact hadv _ rfl
    · exact hstay
  case jpV0 nnn =>
    cases h
    simp only [setPc_pc, jpV0_toNat]; omega
  case jp nnn =>
    cases h
    simp only [setPc_pc, target_toNat]; omega
  case seImm => cases h; exact skipIf_pc_le s _ hp
  case sneImm => cases h; exact skipIf_pc_le s _ hp
  case seReg => cases h; exact skipIf_pc_le s _ hp
  case sneReg => cases h; exact skipIf_pc_le s _ hp
  all_goals (cases h; first | exact hadv _ rfl | (rw [writeFr_eq]; exact hadv _ rfl))

/-! ### A cycle, inverted -/

/-- No meaning of an instruction ends a run: whatever exec answers is a next state. -/
theorem exec_ne_stop (i : Instr) (s : State) (e : Refusal) : exec i s ≠ .refused e := by
  have hc : ∀ r, s.commit r ≠ .refused e := fun r => by cases r <;> simp
  cases i <;> simp only [exec, execCls, execRet, execJp, execCall, execSeImm, execSneImm, execSeReg, execSneReg,
    execJpV0, execLdImm, execAddImm, execMov, execOr, execAnd, execXor, execAdd, execSub, execShr, execSubn,
    execShl, execRnd, State.writeResult, State.writeFlagged, execLdI, execAddIX, execLdFX, execBcd, execStore,
    execLoad, execDrw, execSkp, execSknp, execLdXDt, execLdXK, execLdDtX, execLdStX]
  all_goals first
    | exact hc _
    | (intro h; cases h)
    | (split <;> intro h <;> cases h)

/-- What a cycle that answers `next` has done: nothing when halted, the await step, a fault at fetch or decode, or
one instruction. The timer stage is in `endCycle`. -/
theorem cycle_cases (s t : State) (h : s.cycle = .next t) :
    (s.halted ∧ t = s) ∨
    (s.fault = none ∧ (∃ x, s.await = some x ∧ t = (s.awaitStep x).endCycle)) ∨
    (s.fault = none ∧ s.await = none ∧ (∃ f, t = s.raiseFault f) ∧ ∀ i, ¬ s.fetches i) ∨
    (s.fault = none ∧ ∃ i u, s.fetches i ∧ exec i s = .next u ∧ t = u.endCycle) := by
  by_cases hf : s.fault = none
  · cases ha : s.await with
    | some x =>
      rw [cycle_await s x hf ha] at h; cases h
      exact .inr (.inl ⟨hf, x, rfl, rfl⟩)
    | none =>
      by_cases hp : s.pc.toNat ≤ 0xFFE
      · cases hd : decode (s.readWord s.pc.toNat) with
        | error e =>
          rw [cycle_unknown s e hf ha hp hd] at h; cases h
          refine .inr (.inr (.inl ⟨hf, rfl, ⟨_, rfl⟩, fun i hi => ?_⟩))
          have := hi.2.2
          rw [hd] at this; cases this
        | ok i =>
          cases hu : exec i s with
          | next u =>
            rw [cycle_exec s u i hf ha hp hd hu] at h; cases h
            exact .inr (.inr (.inr ⟨hf, i, u, ⟨ha, hp, hd⟩, hu, rfl⟩))
          | fault e => cases e
          | refused e => exact absurd hu (exec_ne_stop i s e)
      · rw [cycle_fetch_error s hf ha (by omega)] at h; cases h
        exact .inr (.inr (.inl ⟨hf, rfl, ⟨_, rfl⟩, fun i hi => hp hi.2.1⟩))
  · rw [cycle_halted s hf] at h; cases h
    exact .inl ⟨hf, rfl⟩

/-- A step at a cycle, inverted. -/
theorem step_atCycle_inv (s t : State) (ha : s.atCycle) (h : step s = .next t) :
    ∃ u, s.cycle = .next u ∧ t = u.actionDone false := by
  have hno : ∀ a rest, s.script = a :: rest → a.isCycle = true := fun a rest hs => ha a (by simp [hs])
  rcases step_cases s t h with ⟨⟨rest, hs⟩, -⟩ | ⟨⟨rom, rest, hs, -⟩, -⟩ | ⟨⟨rest, hs⟩, -⟩ | ⟨-, hu⟩
  · cases hno _ _ hs
  · cases hno _ _ hs
  · cases hno _ _ hs
  · exact hu

/-- What the await step keeps (R295). -/
theorem awaitStep_eq (s : State) (x : RegIdx) :
    s.awaitStep x = { s with v := (s.awaitStep x).v, pc := (s.awaitStep x).pc, await := (s.awaitStep x).await } := by
  unfold State.awaitStep
  split <;> rfl

/-- The end of a cycle touches the timers only (R145). -/
theorem endCycle_eq (s : State) : s.endCycle = { s with dt := s.endCycle.dt, st := s.endCycle.st } := by
  rcases endCycle_cases s with ⟨-, h⟩ | ⟨-, h⟩ <;> rw [h]
  rfl

@[simp] theorem endCycle_fault (s : State) : s.endCycle.fault = s.fault := by rw [endCycle_eq]
@[simp] theorem endCycle_mem (s : State) : s.endCycle.mem = s.mem := by rw [endCycle_eq]
@[simp] theorem endCycle_params (s : State) : s.endCycle.params = s.params := by rw [endCycle_eq]
@[simp] theorem endCycle_pc (s : State) : s.endCycle.pc = s.pc := by rw [endCycle_eq]
@[simp] theorem endCycle_stack (s : State) : s.endCycle.stack = s.stack := by rw [endCycle_eq]
@[simp] theorem endCycle_await (s : State) : s.endCycle.await = s.await := by rw [endCycle_eq]
@[simp] theorem endCycle_redraw (s : State) : s.endCycle.redraw = s.redraw := by rw [endCycle_eq]
@[simp] theorem awaitStep_fault (s : State) (x : RegIdx) : (s.awaitStep x).fault = s.fault := by rw [awaitStep_eq]
@[simp] theorem awaitStep_mem (s : State) (x : RegIdx) : (s.awaitStep x).mem = s.mem := by rw [awaitStep_eq]
@[simp] theorem awaitStep_params (s : State) (x : RegIdx) : (s.awaitStep x).params = s.params := by
  rw [awaitStep_eq]
@[simp] theorem awaitStep_dt (s : State) (x : RegIdx) : (s.awaitStep x).dt = s.dt := by rw [awaitStep_eq]
@[simp] theorem awaitStep_st (s : State) (x : RegIdx) : (s.awaitStep x).st = s.st := by rw [awaitStep_eq]
@[simp] theorem awaitStep_stack (s : State) (x : RegIdx) : (s.awaitStep x).stack = s.stack := by
  rw [awaitStep_eq]
@[simp] theorem awaitStep_redraw (s : State) (x : RegIdx) : (s.awaitStep x).redraw = s.redraw := by
  rw [awaitStep_eq]

/-- What the host's load keeps (R351). -/
theorem hostLoad_eq (s : State) (rom : List Byte) :
    s.hostLoad rom = { s with mem := (s.hostLoad rom).mem, loadStatus := (s.hostLoad rom).loadStatus } := by
  unfold State.hostLoad
  split <;> rfl

end Sys2Proof.Machine.Laws
end

