-- ==== Sys2Proof/Laws/PerInstr.lean ====
section
/-! SUPPORT. Statements about every instruction as syntax, one lemma per constructor. Family `InTableRow`: the
encoding of an instruction has the fixed bits of its row of spec/opcode_table.json. -/

namespace Sys2Proof.Laws

theorem packNNN_mask (f : BitVec 4) (nnn : BitVec 12) : packNNN f nnn &&& 0xF000#16 = packNNN f 0 := by
  refine BitVec.eq_of_getLsbD_eq fun i h => ?_
  simp only [packNNN, BitVec.getLsbD_and, BitVec.getLsbD_append]
  interval_cases i <;> simp

theorem packXKK_mask (f : BitVec 4) (x : RegIdx) (kk : Byte) :
    packXKK f x kk &&& 0xF000#16 = packXKK f 0 0 := by
  refine BitVec.eq_of_getLsbD_eq fun i h => ?_
  simp only [packXKK, BitVec.getLsbD_and, BitVec.getLsbD_append]
  interval_cases i <;> simp

theorem packXKK_maskKK (f : BitVec 4) (x : RegIdx) (kk : Byte) :
    packXKK f x kk &&& 0xF0FF#16 = packXKK f 0 kk := by
  refine BitVec.eq_of_getLsbD_eq fun i h => ?_
  simp only [packXKK, BitVec.getLsbD_and, BitVec.getLsbD_append]
  interval_cases i <;> simp

theorem packXYN_mask (f : BitVec 4) (x y : RegIdx) (n : BitVec 4) :
    packXYN f x y n &&& 0xF000#16 = packXYN f 0 0 0 := by
  refine BitVec.eq_of_getLsbD_eq fun i h => ?_
  simp only [packXYN, BitVec.getLsbD_and, BitVec.getLsbD_append]
  interval_cases i <;> simp

theorem packXYN_maskN (f : BitVec 4) (x y : RegIdx) (n : BitVec 4) :
    packXYN f x y n &&& 0xF00F#16 = packXYN f 0 0 n := by
  refine BitVec.eq_of_getLsbD_eq fun i h => ?_
  simp only [packXYN, BitVec.getLsbD_and, BitVec.getLsbD_append]
  interval_cases i <;> simp

def InTableRow.Statement (i : Instr) : Prop := encode i &&& (opcodeRow i).mask = (opcodeRow i).pattern

theorem InTableRow.cls : InTableRow.Statement .cls := rfl
theorem InTableRow.ret : InTableRow.Statement .ret := rfl
theorem InTableRow.jp (nnn : BitVec 12) : InTableRow.Statement (.jp nnn) := packNNN_mask _ nnn
theorem InTableRow.call (nnn : BitVec 12) : InTableRow.Statement (.call nnn) := packNNN_mask _ nnn
theorem InTableRow.seImm (x : RegIdx) (kk : Byte) : InTableRow.Statement (.seImm x kk) := packXKK_mask _ x kk
theorem InTableRow.sneImm (x : RegIdx) (kk : Byte) : InTableRow.Statement (.sneImm x kk) := packXKK_mask _ x kk
theorem InTableRow.seReg (x y : RegIdx) : InTableRow.Statement (.seReg x y) := packXYN_maskN _ x y _
theorem InTableRow.ldImm (x : RegIdx) (kk : Byte) : InTableRow.Statement (.ldImm x kk) := packXKK_mask _ x kk
theorem InTableRow.addImm (x : RegIdx) (kk : Byte) : InTableRow.Statement (.addImm x kk) := packXKK_mask _ x kk
theorem InTableRow.mov (x y : RegIdx) : InTableRow.Statement (.mov x y) := packXYN_maskN _ x y _
theorem InTableRow.or (x y : RegIdx) : InTableRow.Statement (.or x y) := packXYN_maskN _ x y _
theorem InTableRow.and (x y : RegIdx) : InTableRow.Statement (.and x y) := packXYN_maskN _ x y _
theorem InTableRow.xor (x y : RegIdx) : InTableRow.Statement (.xor x y) := packXYN_maskN _ x y _
theorem InTableRow.add (x y : RegIdx) : InTableRow.Statement (.add x y) := packXYN_maskN _ x y _
theorem InTableRow.sub (x y : RegIdx) : InTableRow.Statement (.sub x y) := packXYN_maskN _ x y _
theorem InTableRow.shr (x y : RegIdx) : InTableRow.Statement (.shr x y) := packXYN_maskN _ x y _
theorem InTableRow.subn (x y : RegIdx) : InTableRow.Statement (.subn x y) := packXYN_maskN _ x y _
theorem InTableRow.shl (x y : RegIdx) : InTableRow.Statement (.shl x y) := packXYN_maskN _ x y _
theorem InTableRow.sneReg (x y : RegIdx) : InTableRow.Statement (.sneReg x y) := packXYN_maskN _ x y _
theorem InTableRow.ldI (nnn : BitVec 12) : InTableRow.Statement (.ldI nnn) := packNNN_mask _ nnn
theorem InTableRow.jpV0 (nnn : BitVec 12) : InTableRow.Statement (.jpV0 nnn) := packNNN_mask _ nnn
theorem InTableRow.rnd (x : RegIdx) (kk : Byte) : InTableRow.Statement (.rnd x kk) := packXKK_mask _ x kk
theorem InTableRow.drw (x y : RegIdx) (n : Fin 16) : InTableRow.Statement (.drw x y n) := packXYN_mask _ x y _
theorem InTableRow.skp (x : RegIdx) : InTableRow.Statement (.skp x) := packXKK_maskKK _ x _
theorem InTableRow.sknp (x : RegIdx) : InTableRow.Statement (.sknp x) := packXKK_maskKK _ x _
theorem InTableRow.ldXDt (x : RegIdx) : InTableRow.Statement (.ldXDt x) := packXKK_maskKK _ x _
theorem InTableRow.ldXK (x : RegIdx) : InTableRow.Statement (.ldXK x) := packXKK_maskKK _ x _
theorem InTableRow.ldDtX (x : RegIdx) : InTableRow.Statement (.ldDtX x) := packXKK_maskKK _ x _
theorem InTableRow.ldStX (x : RegIdx) : InTableRow.Statement (.ldStX x) := packXKK_maskKK _ x _
theorem InTableRow.addIX (x : RegIdx) : InTableRow.Statement (.addIX x) := packXKK_maskKK _ x _
theorem InTableRow.ldFX (x : RegIdx) : InTableRow.Statement (.ldFX x) := packXKK_maskKK _ x _
theorem InTableRow.bcd (x : RegIdx) : InTableRow.Statement (.bcd x) := packXKK_maskKK _ x _
theorem InTableRow.store (x : RegIdx) : InTableRow.Statement (.store x) := packXKK_maskKK _ x _
theorem InTableRow.load (x : RegIdx) : InTableRow.Statement (.load x) := packXKK_maskKK _ x _

end Sys2Proof.Laws
end

