-- ==== Sys2Proof/Tests/Slice0.lean ====
section
/-! SUPPORT. Tests and witnesses. Every expected result comes from the spec: the encodings of 30_encoding.md R104, the
worked examples E1 to E10 and the derived vectors of 95_test_vectors.md sections 1 and 2, named beside each test. -/

namespace Sys2Proof.Tests

open Sys2Proof Sys2Proof.Machine

/-! ### Helpers -/

/-- The state after `init` with one word at 0x200. -/
def placed (w : Nat) : State := State.reset.withFetchWord 16 w

/-- The state with some general registers set. -/
def withRegs (s : State) (regs : List (RegIdx × Byte)) : State := regs.foldl (fun t c => t.setReg c.1 c.2) s

/-- The state with bytes written from an address up. -/
def withBytes (s : State) (a : Nat) (bs : List Byte) : State :=
  { s with mem := Memory.writeList s.params s.mem a bs }

/-- The state with some pixels lit. -/
def withPixels (s : State) (lit : List (Fin 64 × Fin 32)) : State :=
  { s with fb := lit.foldl (fun fb c => Framebuffer.setPixel fb c.1 c.2 true) s.fb }

/-- The snapshot with exactly these keys pressed. -/
def pressing (ks : List (Fin 16)) : Keypad := Vector.ofFn (fun k => ks.contains k)

/-- The state whose next action is a cycle with these keys and this random byte. -/
def withInputs (s : State) (ks : List (Fin 16)) (rand : Byte) : State :=
  { s with script := [.cycle (pressing ks) rand] }

/-- A result is a next state that passes. -/
def nextIs (r : Result) (p : State → Bool) : Bool :=
  match r with
  | .next t => p t
  | .fault _ => false
  | .refused _ => false

/-- A step latches this fault and changes nothing else but the host bookkeeping (R144). -/
def Latches (s : State) (code : FaultCode) (info : Nat) : Prop :=
  step s = .next ({ s with fault := some ⟨code, info⟩ }.actionDone false)

/-- The parameters with another VF_DEST_POLICY. -/
def withVfDest (s : State) (p : VfDestPolicy) : State := { s with params := { s.params with vfDest := p } }

/-- The parameters with FONT_WRITE_POLICY = allow. -/
def withFontAllowed (s : State) : State := { s with params := { s.params with fontWrite := .allow } }

/-! ### Well-formedness: an ill-formed term for each check -/

/-- R106, one word of each of the six illegal classes. -/
theorem test_illegal_words_refused :
    legalWord 0x00E1 = false ∧ legalWord 0x0123 = false ∧ legalWord 0x5121 = false ∧ legalWord 0x8AB8 = false ∧
    legalWord 0x912F = false ∧ legalWord 0xE19F = false ∧ legalWord 0xF130 = false := by decide

/-- R351: 3584 bytes fit and 3585 do not. -/
theorem test_rom_length_checked :
    romFits (List.replicate 3584 0) = true ∧ romFits (List.replicate 3585 0) = false := by
  simp only [romFits, List.length_replicate]
  decide

/-! ### Decoding: words written out from R104, for every constructor -/

theorem test_decode_family_0 :
    decode 0x00E0 = .ok .cls ∧ decode 0x00EE = .ok .ret ∧ decode 0x0000 = .error (.unknownOpcode 0x0000) ∧
    decode 0x0123 = .error (.unknownOpcode 0x0123) := by decide

theorem test_decode_jumps :
    decode 0x1ABC = .ok (.jp 0xABC) ∧ decode 0x2ABC = .ok (.call 0xABC) ∧ decode 0xBABC = .ok (.jpV0 0xABC) := by
  decide

theorem test_decode_skips :
    decode 0x3A12 = .ok (.seImm 0xA 0x12) ∧ decode 0x4A12 = .ok (.sneImm 0xA 0x12) ∧
    decode 0x5AB0 = .ok (.seReg 0xA 0xB) ∧ decode 0x9AB0 = .ok (.sneReg 0xA 0xB) ∧
    decode 0x9AB1 = .error (.unknownOpcode 0x9AB1) := by decide

theorem test_decode_immediates :
    decode 0x6A3C = .ok (.ldImm 0xA 0x3C) ∧ decode 0x7A3C = .ok (.addImm 0xA 0x3C) ∧
    decode 0xCA3C = .ok (.rnd 0xA 0x3C) ∧ decode 0xAABC = .ok (.ldI 0xABC) := by decide

theorem test_decode_family_8 :
    decode 0x8AB0 = .ok (.mov 0xA 0xB) ∧ decode 0x8AB1 = .ok (.or 0xA 0xB) ∧ decode 0x8AB2 = .ok (.and 0xA 0xB) ∧
    decode 0x8AB3 = .ok (.xor 0xA 0xB) ∧ decode 0x8AB4 = .ok (.add 0xA 0xB) ∧ decode 0x8AB5 = .ok (.sub 0xA 0xB) ∧
    decode 0x8AB6 = .ok (.shr 0xA 0xB) ∧ decode 0x8AB7 = .ok (.subn 0xA 0xB) ∧
    decode 0x8ABE = .ok (.shl 0xA 0xB) ∧ decode 0x8ABF = .error (.unknownOpcode 0x8ABF) := by decide

theorem test_decode_draw_and_keys :
    decode 0xD12F = .ok (.drw 1 2 0xF) ∧ decode 0xE19E = .ok (.skp 1) ∧ decode 0xE1A1 = .ok (.sknp 1) ∧
    decode 0xE19F = .error (.unknownOpcode 0xE19F) := by decide

theorem test_decode_family_F :
    decode 0xF107 = .ok (.ldXDt 1) ∧ decode 0xF10A = .ok (.ldXK 1) ∧ decode 0xF115 = .ok (.ldDtX 1) ∧
    decode 0xF118 = .ok (.ldStX 1) ∧ decode 0xF11E = .ok (.addIX 1) ∧ decode 0xF129 = .ok (.ldFX 1) ∧
    decode 0xF133 = .ok (.bcd 1) ∧ decode 0xF155 = .ok (.store 1) ∧ decode 0xFF65 = .ok (.load 0xF) ∧
    decode 0xF130 = .error (.unknownOpcode 0xF130) := by decide

/-- R73: the more significant byte lies at the lower address. -/
theorem test_decode_bytes_big_endian :
    decodeBytes [0x6A, 0x3C, 0x99] = .ok (.ldImm 0xA 0x3C, [0x99]) ∧ decodeTableWord 16 0x6A3C = some (.ldImm 0xA 0x3C) ∧
    decodeTableWord 16 0x5121 = none := by decide

/-! ### Reset and the host's ports (sections 1 E1, 2.7) -/

theorem test_reset_E1 :
    State.reset.pc = 0x200 ∧ State.reset.sp = 0 ∧ State.reset.dt = 0 ∧ State.reset.readByte 0x000 = 0xF0 ∧
    State.reset.readByte 0x04F = 0x80 ∧ State.reset.readByte 0x050 = 0 := by decide

/-- 2.7: the word 0x0000 of empty memory latches UNKNOWN_OPCODE, DT and PC stay. -/
theorem test_step_unknown : Latches { State.reset with dt := 5 } .unknownOpcode 0x0000 := rfl

theorem test_step_fetch_out_of_range : Latches { State.reset with pc := 0x0FFF } .fetchOutOfRange 0x0FFF := rfl

/-- 2.7: the last fetchable word runs. -/
theorem test_step_last_word :
    nextIs (step { withBytes State.reset 0xFFE [0x12, 0x00] with pc := 0xFFE }) (fun t => t.pc == 0x200) = true := by
  decide

theorem test_load_places_rom :
    nextIs (step { State.reset with script := [.load [0x12, 0x34, 0x56]] }) (fun t =>
      t.readByte 0x200 == 0x12 && t.readByte 0x202 == 0x56 && t.loadStatus == some .ok && t.pc == 0x200) = true := by
  decide

/-- R345, U16: a load that does not come directly after `init` is outside the contract. -/
theorem test_load_late_refused :
    step { State.reset with script := [.load []], freshInit := false } = .refused .loadOutsideContract := rfl

theorem test_clear_redraw :
    nextIs (step { State.reset with redraw := true, script := [.clearRedraw] }) (fun t => !t.redraw) = true := by decide

/-- 2.7: `init` leaves a latched fault. -/
theorem test_init_clears_fault :
    nextIs (step { State.reset with fault := some ⟨.stackOverflow, 1⟩, dt := 5, script := [.init] })
      (fun t => t.fault == none && t.dt == 0 && t.pc == 0x200) = true := by decide

/-! ### Control flow (2.2) -/

theorem test_ret_returns :
    nextIs (step { placed 0x00EE with sp := 1, stack := Vector.replicate 16 0x345 })
      (fun t => t.pc == 0x345 && t.sp == 0) = true := by decide

theorem test_ret_underflow : Latches (placed 0x00EE) .stackUnderflow 0x200 := rfl

theorem test_jp_odd_target : nextIs (step (placed 0x1201)) (fun t => t.pc == 0x201) = true := by decide

theorem test_call_pushes :
    nextIs (step (placed 0x2210)) (fun t => t.stack[0] == 0x202 && t.sp == 1 && t.pc == 0x210) = true := by decide

theorem test_call_overflow : Latches { placed 0x2400 with sp := 16 } .stackOverflow 0x200 := rfl

theorem test_seImm_both_ways :
    nextIs (step (withRegs (placed 0x3310) [(3, 0x10)])) (fun t => t.pc == 0x204) = true ∧
    nextIs (step (withRegs (placed 0x3310) [(3, 0x11)])) (fun t => t.pc == 0x202) = true := by decide

theorem test_sneImm_skips :
    nextIs (step (withRegs (placed 0x4310) [(3, 0x11)])) (fun t => t.pc == 0x204) = true := by decide

theorem test_seReg_same_register : nextIs (step (placed 0x5110)) (fun t => t.pc == 0x204) = true := by decide

theorem test_sneReg_same_register : nextIs (step (placed 0x9110)) (fun t => t.pc == 0x202) = true := by decide

/-- 2.2: Bnnn is not reduced. -/
theorem test_jpV0_not_reduced :
    nextIs (step (withRegs (placed 0xBFFF) [(0, 0xFF)])) (fun t => t.pc == 0x10FE) = true := by decide

/-! ### Loads and the ALU (section 1 E4 to E6, 2.3); VF = 0x77 before -/

theorem test_ldImm_E4 : nextIs (step (placed 0x6A3C)) (fun t => t.reg 0xA == 0x3C && t.pc == 0x202) = true := by
  decide

theorem test_addImm_wraps_without_flag :
    nextIs (step (withRegs (placed 0x7002) [(0, 0xFF), (0xF, 0x77)])) (fun t => t.reg 0 == 0x01 && t.reg 0xF == 0x77) =
      true := by decide

theorem test_mov_copies_y :
    nextIs (step (withRegs (placed 0x8010) [(0, 0x11), (1, 0x22)])) (fun t => t.reg 0 == 0x22 && t.reg 1 == 0x22) =
      true := by decide

theorem test_or_keeps_vf :
    nextIs (step (withRegs (placed 0x8011) [(0, 0x0F), (1, 0xF0), (0xF, 0x77)])) (fun t =>
      t.reg 0 == 0xFF && t.reg 0xF == 0x77) = true := by decide

theorem test_and_keeps_vf :
    nextIs (step (withRegs (placed 0x8012) [(0, 0x3C), (1, 0x0F), (0xF, 0x77)])) (fun t =>
      t.reg 0 == 0x0C && t.reg 0xF == 0x77) = true := by decide

theorem test_xor_same_register :
    nextIs (step (withRegs (placed 0x8003) [(0, 0x3C), (0xF, 0x77)])) (fun t => t.reg 0 == 0 && t.reg 0xF == 0x77) =
      true := by decide

theorem test_add_E5 :
    nextIs (step (withRegs (placed 0x8014) [(0, 0xFF), (1, 0x01)])) (fun t => t.reg 0 == 0 && t.reg 0xF == 1) = true := by
  decide

/-- 2.3: VF as the second operand is read before the flag is written; VF as the destination, by policy. -/
theorem test_add_with_vf :
    nextIs (step (withRegs (placed 0x81F4) [(1, 0x10), (0xF, 0x20)])) (fun t => t.reg 1 == 0x30 && t.reg 0xF == 0) =
      true ∧
    nextIs (step (withVfDest (withRegs (placed 0x8F14) [(1, 0x01), (0xF, 0xFF)]) .flagLast)) (fun t => t.reg 0xF == 1) =
      true := by decide

theorem test_sub_E6 :
    nextIs (step (withRegs (placed 0x8015) [(0, 0x01), (1, 0x02)])) (fun t => t.reg 0 == 0xFF && t.reg 0xF == 0) =
      true := by decide

/-- 2.3: equal operands leave no-borrow at 0; VF as the destination, by policy. -/
theorem test_sub_equal_and_vf :
    nextIs (step (withRegs (placed 0x8015) [(0, 0x03), (1, 0x03), (0xF, 0x77)])) (fun t =>
      t.reg 0 == 0 && t.reg 0xF == 0) = true ∧
    nextIs (step (withVfDest (withRegs (placed 0x8F15) [(1, 0x20), (0xF, 0x10)]) .resultLast)) (fun t =>
      t.reg 0xF == 0xF0) = true := by decide

/-- 2.3: the operand is V[x], not V[y], and bit 0 goes to VF. -/
theorem test_shr_ignores_y :
    nextIs (step (withRegs (placed 0x8016) [(0, 0xFF), (1, 0x02)])) (fun t => t.reg 0 == 0x7F && t.reg 0xF == 1) =
      true := by decide

theorem test_subn_reverses :
    nextIs (step (withRegs (placed 0x8017) [(0, 0x03), (1, 0x05)])) (fun t => t.reg 0 == 0x02 && t.reg 0xF == 1) =
      true := by decide

theorem test_shl_bit_out :
    nextIs (step (withRegs (placed 0x801E) [(0, 0xFF), (1, 0x02)])) (fun t => t.reg 0 == 0xFE && t.reg 0xF == 1) =
      true := by decide

theorem test_rnd_masks :
    nextIs (step (withInputs (placed 0xC3F0) [] 0x5A)) (fun t => t.reg 3 == 0x50) = true := by decide

/-! ### Index register and memory (2.4) -/

theorem test_ldI_zero_extends : nextIs (step (placed 0xAFFF)) (fun t => t.i == 0x0FFF) = true := by decide

theorem test_addIX_wraps_without_flag :
    nextIs (step { withRegs (placed 0xF11E) [(1, 0x01), (0xF, 0x77)] with i := 0xFFFF }) (fun t =>
      t.i == 0 && t.reg 0xF == 0x77) = true := by decide

theorem test_ldFX_not_reduced :
    nextIs (step (withRegs (placed 0xF029) [(0, 0xFF)])) (fun t => t.i == 0x04FB) = true := by decide

theorem test_bcd_255 :
    nextIs (step { withRegs (placed 0xF033) [(0, 255)] with i := 0x300 }) (fun t =>
      t.readByte 0x300 == 2 && t.readByte 0x301 == 5 && t.readByte 0x302 == 5 && t.i == 0x300) = true := by decide

/-- 2.4: the third byte is out of range, and the first two are not written. -/
theorem test_bcd_faults_whole :
    Latches { withRegs (placed 0xF033) [(0, 1)] with i := 0xFFE } .memOutOfRange 0x1000 ∧
    Latches { placed 0xF033 with i := 0x04E } .fontWrite 0x04E := ⟨rfl, rfl⟩

theorem test_store_low_registers :
    nextIs (step { withRegs (placed 0xF155) [(0, 1), (1, 2), (2, 3)] with i := 0x300 }) (fun t =>
      t.readByte 0x300 == 1 && t.readByte 0x301 == 2 && t.readByte 0x302 == 0) = true := by decide

theorem test_store_faults_whole :
    Latches { withRegs (placed 0xFF55) [(0, 1)] with i := 0xFF1 } .memOutOfRange 0x1000 := rfl

/-- 2.4: glyph 0 of the default FONT, and V5 untouched. -/
theorem test_load_glyph :
    nextIs (step (withRegs (placed 0xF465) [(5, 0xAA)])) (fun t =>
      t.reg 0 == 0xF0 && t.reg 1 == 0x90 && t.reg 4 == 0xF0 && t.reg 5 == 0xAA && t.i == 0) = true := by decide

theorem test_load_faults : Latches { placed 0xF065 with i := 0x1000 } .memOutOfRange 0x1000 := rfl

/-! ### Draw (section 1 E2, 2.5) -/

theorem test_cls_E2 :
    nextIs (step (withPixels (placed 0x00E0) [(3, 4)])) (fun t =>
      !Framebuffer.pixel t.fb 3 4 && t.redraw && t.pc == 0x202) = true := by decide

/-- 2.5: wrap on both axes, with the old VF as the column and then the flag. -/
theorem test_drw_wraps :
    nextIs (step { withBytes (withRegs (placed 0xDF12) [(0xF, 63), (1, 31)]) 0x300 [0x81, 0x80] with i := 0x300 })
      (fun t => Framebuffer.pixel t.fb 63 31 && Framebuffer.pixel t.fb 6 31 && Framebuffer.pixel t.fb 63 0 &&
        !Framebuffer.pixel t.fb 0 31 && t.reg 0xF == 0 && t.redraw) = true := by decide

/-- 2.5: one collision suffices, and later bits do not clear it. -/
theorem test_drw_collides :
    nextIs (step { withPixels (withBytes (placed 0xD011) 0x300 [0xC0]) [(0, 0)] with i := 0x300 })
      (fun t => !Framebuffer.pixel t.fb 0 0 && Framebuffer.pixel t.fb 1 0 && t.reg 0xF == 1) = true := by decide

theorem test_drw_faults : Latches { placed 0xD012 with i := 0xFFF } .memOutOfRange 0x1000 := rfl

/-! ### Keypad and timers (2.6) -/

theorem test_skp_reads_snapshot :
    nextIs (step (withInputs (withRegs (placed 0xE29E) [(2, 5)]) [5] 0)) (fun t => t.pc == 0x204) = true ∧
    nextIs (step (withInputs (withRegs (placed 0xE29E) [(2, 5)]) [] 0)) (fun t => t.pc == 0x202) = true := by decide

theorem test_skp_bad_index : Latches (withRegs (placed 0xE29E) [(2, 0x10)]) .keyIndexOutOfRange 0x10 := rfl

theorem test_sknp_reads_snapshot :
    nextIs (step (withInputs (withRegs (placed 0xE2A1) [(2, 5)]) [4] 0)) (fun t => t.pc == 0x204) = true := by decide

theorem test_ldXDt_before_decrement :
    nextIs (step { placed 0xF307 with dt := 0x10 }) (fun t => t.reg 3 == 0x10 && t.dt == 0x0F) = true := by decide

/-- 2.6: with no key the block waits where it stands and DT still counts. -/
theorem test_ldXK_waits :
    nextIs (step (withInputs { placed 0xF50A with dt := 3 } [] 0)) (fun t =>
      t.await == some 5 && t.pc == 0x200 && t.dt == 2 && t.st == 0) = true := by decide

/-- 2.6: a waiting block takes the lowest key. -/
theorem test_await_takes_lowest :
    nextIs (step (withInputs { placed 0xF50A with await := some 5, dt := 2 } [0xF, 0x3] 0)) (fun t =>
      t.reg 5 == 3 && t.pc == 0x202 && t.await == none && t.dt == 1) = true := by decide

theorem test_ldDtX_then_decrement :
    nextIs (step (withRegs (placed 0xF115) [(1, 0xFF)])) (fun t => t.dt == 0xFE) = true ∧
    nextIs (step (withRegs (placed 0xF115) [(1, 0x00)])) (fun t => t.dt == 0) = true := by decide

theorem test_ldStX_then_decrement :
    nextIs (step (withRegs (placed 0xF118) [(1, 0x01)])) (fun t => t.st == 0 && !t.soundActive) = true ∧
    nextIs (step (withRegs (placed 0xF118) [(1, 0x05)])) (fun t => t.st == 4 && t.soundActive) = true := by decide

/-! ### Witnesses: for every statement with hypotheses, a concrete state and operands that meet all of them -/

theorem atCycle_of_nil {s : State} (h : s.script = []) : s.atCycle := fun a ha => by rw [h] at ha; cases ha

theorem ready_of {s : State} (h : s.script = []) (hf : s.fault = none) (ha : s.await = none) : s.ready :=
  ⟨atCycle_of_nil h, hf, ha⟩

theorem placed_ready (w : Nat) : (placed w).ready := ready_of rfl rfl rfl

theorem witness_EncodeInvertsDecode : decode 0x8ABE = .ok (.shl 0xA 0xB) := by decide

theorem witness_RowWordsDecodeToTheirRow :
    (0xD12F : Word) &&& (opcodeRow (.drw 0 0 0)).mask = (opcodeRow (.drw 0 0 0)).pattern := by decide

theorem witness_DecoderTakesExactlyLegalWords : legalWord 0x5121 = false ∧ legalWord 0x5120 = true := by decide

/-- Without a fault and with one. -/
theorem witness_StepRunsDecodedInstruction :
    (∃ t, (placed 0x6A3C).ready ∧ (placed 0x6A3C).fetches (.ldImm 0xA 0x3C) ∧
      exec (.ldImm 0xA 0x3C) (placed 0x6A3C) = .next t ∧ t.fault = none) ∧
    (∃ t, (placed 0x00EE).ready ∧ (placed 0x00EE).fetches .ret ∧ exec .ret (placed 0x00EE) = .next t ∧
      t.fault ≠ none) :=
  ⟨⟨_, placed_ready _, ⟨rfl, by decide, by decide⟩, rfl, rfl⟩,
    ⟨_, placed_ready _, ⟨rfl, by decide, by decide⟩, rfl, by decide⟩⟩

theorem witness_FetchOutOfRangeLatches :
    ({ State.reset with pc := 0xFFF } : State).ready ∧ 0xFFE < ({ State.reset with pc := 0xFFF } : State).pc.toNat :=
  ⟨ready_of rfl rfl rfl, by decide⟩

/-- At the last fetchable address, where memory holds 0x0000. -/
theorem witness_IllegalWordLatches : ∃ s : State, s.ready ∧ s.pc.toNat = 0xFFE ∧
    legalWord (s.readWord s.pc.toNat) = false :=
  ⟨{ State.reset with pc := 0xFFE }, ready_of rfl rfl rfl, by decide, by decide⟩

theorem halted_of {s : State} {f : FaultRecord} (h : s.fault = some f) : s.halted := fun hn => by rw [h] at hn; cases hn

theorem not_halted_of {s : State} (h : s.fault = none) : ¬ s.halted := fun hh => hh h

theorem witness_HaltedCycleChangesNothing : ∃ s : State, s.atCycle ∧ s.halted :=
  ⟨{ State.reset with fault := some ⟨.stackOverflow, 0x200⟩ }, atCycle_of_nil rfl, halted_of rfl⟩

theorem witness_OnlyInitClearsFault : ∃ s t : State, s.halted ∧ step s = .next t ∧ s.script.head? ≠ some .init :=
  ⟨{ State.reset with fault := some ⟨.stackOverflow, 0x200⟩, script := [.clearRedraw] }, _, halted_of rfl, rfl,
    by decide⟩

/-- For an instruction that leaves the timers, for Fx15 and for Fx18, without a fault. -/
theorem witness_CyclesCountTimersDown : ∀ w i,
    (w, i) ∈ [(0x6A3C, Instr.ldImm 0xA 0x3C), (0xF115, .ldDtX 1), (0xF118, .ldStX 1)] →
    ∃ t, (placed w).atCycle ∧ (placed w).fault = none ∧ (placed w).fetches i ∧ step (placed w) = .next t ∧
      t.fault = none := by
  intro w i h
  simp only [List.mem_cons, List.not_mem_nil, or_false, Prod.mk.injEq] at h
  rcases h with ⟨rfl, rfl⟩ | ⟨rfl, rfl⟩ | ⟨rfl, rfl⟩ <;>
    exact ⟨_, atCycle_of_nil rfl, rfl, ⟨rfl, by decide, by decide⟩, rfl, by decide⟩

/-- A waiting cycle, and a cycle that faults. -/
theorem witness_CyclesCountTimersDown_other :
    (∃ s t : State, s.atCycle ∧ s.fault = none ∧ step s = .next t ∧ t.fault = none ∧ ∀ i, ¬ s.fetches i) ∧
    (∃ t, (placed 0x00EE).atCycle ∧ (placed 0x00EE).fault = none ∧ step (placed 0x00EE) = .next t ∧ t.fault ≠ none) :=
  ⟨⟨withInputs { placed 0xF50A with await := some 5 } [] 0, _, fun a ha => by cases ha; rfl, rfl, rfl, by decide,
      fun i h => by cases h.1⟩, ⟨_, atCycle_of_nil rfl, rfl, rfl, by decide⟩⟩

theorem witness_FaultsArePrecise :
    ∃ t, (placed 0x00EE).atCycle ∧ (placed 0x00EE).fault = none ∧ step (placed 0x00EE) = .next t ∧ t.fault ≠ none :=
  ⟨_, atCycle_of_nil rfl, rfl, rfl, by decide⟩

theorem witness_OnlyListedInstructionsFault :
    ∃ t, exec .ret State.reset = .next t ∧ t.fault ≠ State.reset.fault := ⟨_, rfl, by decide⟩

/-- A waiting block with keys 3 and F pressed, and one with no key pressed. -/
theorem witness_AwaitStepTakesLowestKey :
    (∃ (s : State) (x : RegIdx) (k : Fin 16), s.atCycle ∧ s.fault = none ∧ s.await = some x ∧ s.keys[k] = true ∧
      ∀ j < k, s.keys[j] = false) ∧
    (∃ (s : State) (x : RegIdx), s.atCycle ∧ s.fault = none ∧ s.await = some x ∧ ∀ k : Fin 16, s.keys[k] = false) := by
  refine ⟨⟨withInputs { placed 0xF50A with await := some 5 } [0xF, 0x3] 0, 5, 3, ?_, rfl, rfl, by decide, by decide⟩,
    ⟨withInputs { placed 0xF50A with await := some 5 } [] 0, 5, ?_, rfl, rfl, by decide⟩⟩ <;>
    exact fun a ha => by cases ha; rfl

/-- A state that meets the invariant and waits for a key. -/
def waiting : State := { placed 0xF50A with await := some 5, freshInit := false }

theorem waiting_inv : waiting.Inv where
  mem_wf := by decide
  pc_le := by decide
  stack_le := by decide
  await_fault := .inr rfl
  await_fetch := fun x hx => by cases hx; decide
  fresh_idle := fun h => by cases h

theorem witness_AwaitStepIsReexecution : ∃ s : State, s.Inv ∧ s.await ≠ none := ⟨waiting, waiting_inv, by decide⟩

/-- SP = 1 and SP = 0. -/
theorem witness_ReturnPopsTheStack : ∃ s u : State, 0 < s.sp.val ∧ u.sp.val = 0 :=
  ⟨{ State.reset with sp := 1 }, State.reset, by decide, by decide⟩

/-- SP = 15 and SP = 16. -/
theorem witness_CallPushesReturnAddress : ∃ s u : State, s.sp.val < 16 ∧ u.sp.val = 16 :=
  ⟨{ State.reset with sp := 15 }, { State.reset with sp := 16 }, by decide, by decide⟩

theorem witness_CallReturnRoundTrip : ∃ s t u : State, s.sp.val < 16 ∧ exec (.call 0x210) s = .next t ∧ u.sp = t.sp ∧
    u.stack[s.sp.val]? = t.stack[s.sp.val]? :=
  ⟨{ State.reset with sp := 15 }, _, { State.reset with sp := 16, stack := Vector.replicate 16 0x202 }, by decide, rfl,
    by decide, by decide⟩

/-- The clauses of `FlaggedResult`: x is not F, and x is F under each policy. -/
theorem witness_FlaggedResult : (0 : RegIdx) ≠ vf ∧ (withVfDest State.reset .resultLast).params.vfDest = .resultLast ∧
    (withVfDest State.reset .flagLast).params.vfDest = .flagLast ∧ State.reset.params.vfDest = .either := by decide

theorem witness_InputsComeFromTheHostAction :
    (withInputs State.reset [5] 0x5A).script = .cycle (pressing [5]) 0x5A :: [] := rfl

/-- The last three bytes of memory, and the first of the font region where the policy allows writing it. -/
theorem witness_BcdStoresDecimalDigits :
    (∀ j < 3, ({ State.reset with i := 0xFFD } : State).writable j) ∧ ∀ j < 3, (withFontAllowed State.reset).writable j := by
  simp only [State.writable, State.effAddr]
  decide

/-- All sixteen registers into the last sixteen bytes, and one just above the font region. -/
theorem witness_StoreWritesRegisters :
    (∀ j ≤ (0xF : RegIdx).val, ({ State.reset with i := 0xFF0 } : State).writable j) ∧
    ∀ j ≤ (0 : RegIdx).val, ({ State.reset with i := 0x050 } : State).writable j := by
  simp only [State.writable, State.effAddr]
  decide

theorem witness_LoadReadsRegisters :
    ∀ j ≤ (0xF : RegIdx).val, ({ State.reset with i := 0xFF0 } : State).readable j := by
  simp only [State.readable, State.effAddr]
  decide

/-- The second byte is the first out of range. -/
theorem witness_ReadsReportFirstFailingByte :
    ¬ ({ State.reset with i := 0xFFF } : State).readable 1 ∧
    (∀ k < 1, ({ State.reset with i := 0xFFF } : State).readable k) ∧ 1 ≤ (1 : RegIdx).val ∧ 1 < (2 : Fin 16).val := by
  simp only [State.readable, State.effAddr]
  decide

/-- The third byte of Fx33 and the last of Fx55 beyond 0xFFF, and the first byte at 0x04F. -/
theorem witness_WritesReportFirstFailingByte :
    ((∀ k < 2, ({ State.reset with i := 0xFFE } : State).writable k) ∧
      0xFFF < ({ State.reset with i := 0xFFE } : State).effAddr 2 ∧ 2 ≤ (2 : RegIdx).val) ∧
    ((∀ k < 0, ({ State.reset with i := 0x04F } : State).writable k) ∧
      ({ State.reset with i := 0x04F } : State).effAddr 0 ≤ 0x04F ∧ State.reset.params.fontWrite = .fault) := by
  simp only [State.writable, State.effAddr]
  decide

/-- The store of V0 and V1 at 0x300. -/
theorem witness_StoreLoadRoundTrip : ∃ s t u : State, (∀ j ≤ (1 : RegIdx).val, s.writable j) ∧
    exec (.store 1) s = .next t ∧ u.i = s.i ∧
    ∀ j ≤ (1 : RegIdx).val, u.readByte (s.effAddr j) = t.readByte (s.effAddr j) := by
  refine ⟨{ withRegs State.reset [(0, 0x12), (1, 0x34)] with i := 0x300 }, _,
    { withBytes State.reset 0x300 [0x12, 0x34] with i := 0x300 }, ?_, rfl, rfl, by decide⟩
  simp only [State.writable, State.effAddr]
  decide

theorem witness_StoredBytesAreFetched : ∃ s t u : State, 1 ≤ (1 : RegIdx).val ∧ (∀ j ≤ (1 : RegIdx).val, s.writable j) ∧
    exec (.store 1) s = .next t ∧ u.mem = t.mem ∧ u.params = t.params ∧ u.pc = s.i := by
  refine ⟨{ withRegs State.reset [(0, 0x12), (1, 0x34)] with i := 0x300 }, _,
    { withBytes State.reset 0x300 [0x12, 0x34] with pc := 0x300 }, by decide, ?_, rfl, by decide, rfl, rfl⟩
  simp only [State.writable, State.effAddr]
  decide

/-- A one-row sprite at the last byte, with a pixel it meets and one it does not; the pixel it meets is lit in one
state and dark in the other. -/
def sprited : State := { withBytes State.reset 0xFFF [0x80] with i := 0xFFF }

theorem sprited_readable : ∀ r < (1 : Fin 16).val, sprited.readable r := by
  simp only [State.readable, State.effAddr]
  decide

theorem sprited_dark (px : Fin 64) (py : Fin 32) : Framebuffer.pixel sprited.fb px py = false := by
  show Framebuffer.pixel (Vector.replicate 32 (Vector.replicate 64 false)) px py = false
  simp [Framebuffer.pixel]

theorem sprited_on : sprited.spriteOn 0 1 1 0 0 := ⟨0, 0, by decide, by decide, by decide, by decide, by decide⟩

theorem sprited_only (px : Fin 64) (py : Fin 32) (h : sprited.spriteOn 0 1 1 px py) : px = 0 ∧ py = 0 := by
  obtain ⟨r, b, hr, hb, hx, hy, hs⟩ := h
  have hr : r = 0 := by omega
  subst hr
  have hrow : sprited.readByte (sprited.effAddr 0) = 0x80 := by decide
  rw [hrow] at hs
  have h0 : ∀ b < 8, (0x80 : Byte).getLsbD (7 - b) = true → b = 0 := by decide
  obtain rfl := h0 b hb hs
  exact ⟨Fin.ext hx, Fin.ext hy⟩

theorem witness_DrawFlipsSpritePixels : (∀ r < (1 : Fin 16).val, sprited.readable r) ∧ sprited.spriteOn 0 1 1 0 0 ∧
    ¬ sprited.spriteOn 0 1 1 1 0 :=
  ⟨sprited_readable, sprited_on, fun h => by cases (sprited_only _ _ h).1⟩

theorem witness_DrawCollisionFlag :
    (∃ px py, sprited.spriteOn 0 1 1 px py ∧ Framebuffer.pixel (withPixels sprited [(0, 0)]).fb px py = true) ∧
    ∀ px py, sprited.spriteOn 0 1 1 px py → Framebuffer.pixel sprited.fb px py = false :=
  ⟨⟨0, 0, sprited_on, by decide⟩, fun px py h => by obtain ⟨rfl, rfl⟩ := sprited_only px py h; decide⟩

theorem witness_DrawTwiceErases : (∀ r < (1 : Fin 16).val, sprited.readable r) ∧ (0 : RegIdx) ≠ vf ∧ (1 : RegIdx) ≠ vf ∧
    (∀ px py, Framebuffer.pixel sprited.fb px py = false) ∧ ∃ px py, sprited.spriteOn 0 1 1 px py :=
  ⟨sprited_readable, by decide, by decide, sprited_dark, 0, 0, sprited_on⟩

/-- The highest key index. -/
theorem witness_KeySkips : ((withRegs State.reset [(2, 0x0F)]).reg 2).toNat = (0xF : Fin 16).val := by decide

/-- The lowest value that is no key index. -/
theorem witness_KeyIndexOutOfRangeLatches : 0x0F < ((withRegs State.reset [(2, 0x10)]).reg 2).toNat := by decide

theorem witness_TimerInstructions : State.reset.fault = none := rfl

theorem witness_KeyWait :
    (∃ (s : State) (k : Fin 16), s.keys[k] = true ∧ ∀ j < k, s.keys[j] = false) ∧
    ∃ s : State, ∀ k : Fin 16, s.keys[k] = false :=
  ⟨⟨withInputs State.reset [0xF] 0, 0xF, by decide, by decide⟩, withInputs State.reset [] 0, by decide⟩

theorem placed_inv : (placed 0x00E0).Inv where
  mem_wf := by decide
  pc_le := by decide
  stack_le := by decide
  await_fault := .inl rfl
  await_fetch := fun x hx => by cases hx
  fresh_idle := fun _ => rfl

theorem witness_StepKeepsInvariant : ∃ s t : State, s.Inv ∧ step s = .next t := ⟨placed 0x00E0, _, placed_inv, rfl⟩

theorem witness_StepKeepsFontRegion : ∃ s t : State, s.params.fontWrite = .fault ∧ s.fontIntact ∧ step s = .next t :=
  ⟨placed 0x00E0, _, rfl, by unfold State.fontIntact; decide, rfl⟩

/-- A move, a call and a return that move SP, and the two that cannot. -/
theorem witness_OnlyCallAndReturnMoveStack : ∃ a b c d e : State, exec (.mov 0 1) State.reset = .next a ∧
    exec (.call 0x210) State.reset = .next b ∧ exec .ret b = .next c ∧ exec .ret State.reset = .next d ∧
    exec (.call 0x210) { State.reset with sp := 16 } = .next e :=
  ⟨_, _, _, _, _, rfl, rfl, rfl, rfl, rfl⟩

/-- The host's `clear_redraw` after a draw; an instruction that draws, and one that does not. -/
theorem witness_RedrawSetByDrawingClearedByHost :
    (∃ s t : State, step s = .next t ∧ s.redraw = true ∧ t.redraw = false) ∧
    (∃ t, exec .cls State.reset = .next t ∧ State.reset.fault = none ∧ t.fault = none) ∧
    ∃ t, exec (.mov 0 1) State.reset = .next t :=
  ⟨⟨{ State.reset with redraw := true, script := [.clearRedraw] }, _, rfl, rfl, rfl⟩, ⟨_, rfl, rfl, rfl⟩, _, rfl⟩

theorem witness_OnlyListedInstructionsWriteRegister :
    ∃ t, exec (.ldImm 0xA 0x3C) State.reset = .next t ∧ t.reg 0xA ≠ State.reset.reg 0xA := ⟨_, rfl, by decide⟩

/-- An instruction that changes I, one that changes DT, one that changes ST and one that changes AWAIT. -/
theorem witness_OnlyListedInstructionsWriteSpecials :
    (∃ t, exec (.ldI 0x300) State.reset = .next t ∧ t.i ≠ State.reset.i) ∧
    (∃ s t : State, exec (.ldDtX 1) s = .next t ∧ t.dt ≠ s.dt) ∧
    (∃ s t : State, exec (.ldStX 1) s = .next t ∧ t.st ≠ s.st) ∧
    ∃ s t : State, exec (.ldXK 5) s = .next t ∧ t.await ≠ s.await :=
  ⟨⟨_, rfl, by decide⟩, ⟨withRegs State.reset [(1, 7)], _, rfl, by decide⟩,
    ⟨withRegs State.reset [(1, 7)], _, rfl, by decide⟩, ⟨withInputs State.reset [] 0, _, rfl, by decide⟩⟩

theorem witness_OnlyBcdAndStoreWriteMemory : ∃ s t : State, exec (.bcd 0) s = .next t ∧
    t.readByte 0x302 ≠ s.readByte 0x302 :=
  ⟨{ withRegs State.reset [(0, 9)] with i := 0x300 }, _, rfl, by decide⟩

theorem witness_OnlyListedInstructionsReadInputs :
    ∃ t, ¬ readsInput (.ldImm 0xA 0x3C) ∧ exec (.ldImm 0xA 0x3C) State.reset = .next t := ⟨_, id, rfl⟩

/-- Two cycles of a self-jump, DT at 5 before them. -/
theorem witness_DelayTimerMeasuresCycles :
    ∃ s t : State, SafeRun (fun u => u.atCycle ∧ ∀ x, ¬ u.fetches (.ldDtX x)) 2 s t ∧ s.dt = 5 := by
  have hno : ∀ s : State, decode (s.readWord s.pc.toNat) = .ok (.jp 0x200) → ∀ x, ¬ s.fetches (.ldDtX x) :=
    fun s hs x h => by have := h.2.2; rw [hs] at this; cases this
  exact ⟨{ placed 0x1200 with dt := 5 }, _,
    ⟨not_halted_of rfl, ⟨atCycle_of_nil rfl, hno _ (by decide)⟩, _, rfl,
      not_halted_of rfl, ⟨atCycle_of_nil rfl, hno _ (by decide)⟩, _, rfl, rfl, not_halted_of rfl⟩, rfl⟩

theorem witness_InitActionResetsEverything : ∃ s : State, s.script = .init :: [] ∧ s.halted ∧ s.await ≠ none :=
  ⟨{ State.reset with script := [.init], fault := some ⟨.stackOverflow, 0x200⟩, await := some 5 }, rfl,
    halted_of rfl, by decide⟩

/-- The longest ROM that fits, the shortest that does not, and a load at another time. -/
theorem witness_LoadCopiesOrRejectsRom :
    (∃ (s : State) (rom : List Byte), s.script = .load rom :: [] ∧ s.freshInit = true ∧ rom.length = 3584) ∧
    (∃ (s : State) (rom : List Byte), s.script = .load rom :: [] ∧ s.freshInit = true ∧ rom.length = 3585) ∧
    ∃ (s : State) (rom : List Byte), s.script = .load rom :: [] ∧ s.freshInit = false :=
  ⟨⟨{ State.reset with script := [.load (List.replicate 3584 0)] }, _, rfl, rfl, List.length_replicate⟩,
    ⟨{ State.reset with script := [.load (List.replicate 3585 0)] }, _, rfl, rfl, List.length_replicate⟩,
    ⟨{ State.reset with script := [.load []], freshInit := false }, _, rfl, rfl⟩⟩

theorem witness_ClearRedrawAction :
    ({ State.reset with script := [.clearRedraw] } : State).script = .clearRedraw :: [] ∧
    ∃ s t : State, exec (.mov 0 1) s = .next t ∧ s.redraw = true :=
  ⟨rfl, { State.reset with redraw := true }, _, rfl, rfl⟩

theorem witness_OutputsReadState : ∃ s : State, s.fault = some ⟨.keyIndexOutOfRange, 0x10⟩ ∧ s.st.toNat ≠ 0 :=
  ⟨{ State.reset with fault := some ⟨.keyIndexOutOfRange, 0x10⟩, st := 1 }, rfl, by decide⟩

end Sys2Proof.Tests
end

/-! SUPPORT. What the call, the return and the instructions that store bytes do, inverted once, for the statements about
the whole state. -/

namespace Sys2Proof.Machine.Proofs

open Sys2Proof.Machine.Laws

theorem exec_call_of_lt (s : State) (nnn : BitVec 12) (h16 : s.sp.val < 16) :
    exec (.call nnn) s = .next { s with
      stack := s.stack.set s.sp.val (s.pc + 2) h16, sp := ⟨s.sp.val + 1, by omega⟩, pc := target nnn } := by
  rw [exec, execCall, push_of_lt s _ h16]
  rfl

theorem exec_call_full (s : State) (nnn : BitVec 12) (hfull : s.sp.val = 16) :
    exec (.call nnn) s = .next (s.raiseFault ⟨.stackOverflow, s.pc.toNat⟩) := by
  rw [exec, execCall, push_full s _ hfull]

/-- 2nnn, inverted: it pushes PC + 2 and jumps, or the stack is full and it faults (R173). -/
theorem exec_call_inv {s t : State} {nnn : BitVec 12} (h : exec (.call nnn) s = .next t) :
    (∃ h16 : s.sp.val < 16, t = { s with
      stack := s.stack.set s.sp.val (s.pc + 2) h16, sp := ⟨s.sp.val + 1, by omega⟩, pc := target nnn }) ∨
    (s.sp.val = 16 ∧ t = s.raiseFault ⟨.stackOverflow, s.pc.toNat⟩) := by
  by_cases h16 : s.sp.val < 16
  · rw [exec_call_of_lt s nnn h16] at h
    cases h
    exact .inl ⟨h16, rfl⟩
  · have hfull : s.sp.val = 16 := by omega
    rw [exec_call_full s nnn hfull] at h
    cases h
    exact .inr ⟨hfull, rfl⟩

theorem exec_ret_of_pos (s : State) (h0 : 0 < s.sp.val) :
    exec .ret s = .next { s with sp := ⟨s.sp.val - 1, by omega⟩, pc := s.stack[s.sp.val - 1] } := by
  rw [exec, execRet, pop_of_pos s h0]
  rfl

theorem exec_ret_empty (s : State) (hempty : s.sp.val = 0) :
    exec .ret s = .next (s.raiseFault ⟨.stackUnderflow, s.pc.toNat⟩) := by
  rw [exec, execRet, pop_empty s hempty]

/-- 00EE, inverted: it pops the address it jumps to, or the stack is empty and it faults (R171). -/
theorem exec_ret_inv {s t : State} (h : exec .ret s = .next t) :
    (∃ h0 : 0 < s.sp.val, t = { s with sp := ⟨s.sp.val - 1, by omega⟩, pc := s.stack[s.sp.val - 1] }) ∨
    (s.sp.val = 0 ∧ t = s.raiseFault ⟨.stackUnderflow, s.pc.toNat⟩) := by
  by_cases h0 : 0 < s.sp.val
  · rw [exec_ret_of_pos s h0] at h
    cases h
    exact .inl ⟨h0, rfl⟩
  · have hempty : s.sp.val = 0 := by omega
    rw [exec_ret_empty s hempty] at h
    cases h
    exact .inr ⟨hempty, rfl⟩

theorem exec_params {i : Instr} {s t : State} (h : exec i s = .next t) : t.params = s.params := by
  rcases exec_frame i s t h with hf | ⟨f, -, rfl⟩
  · exact hf.params
  · rfl

/-- An instruction leaves memory alone, or stores a run of bytes whose addresses all pass the check (R77, R79). -/
theorem exec_mem_inv {i : Instr} {s t : State} (h : exec i s = .next t) :
    t.mem = s.mem ∨ ∃ a bs, t.mem = Memory.writeList s.params s.mem a bs ∧
      ∀ j < bs.length, checkWrite s.params (a + j) = none := by
  have hstore : ∀ {a bs}, s.commit ((s.storeBytes a bs).map State.advance) = .next t →
      t.mem = s.mem ∨ ∃ a bs, t.mem = Memory.writeList s.params s.mem a bs ∧
        ∀ j < bs.length, checkWrite s.params (a + j) = none := by
    intro a bs hc
    rcases commit_store_inv hc with ⟨rfl, hpass⟩ | ⟨f, rfl⟩
    · exact .inr ⟨a, bs, rfl, hpass⟩
    · exact .inl rfl
  by_cases hb : ∃ x, i = .bcd x
  · obtain ⟨x, rfl⟩ := hb
    exact hstore h
  by_cases hs : ∃ x, i = .store x
  · obtain ⟨x, rfl⟩ := hs
    exact hstore h
  rcases exec_frame i s t h with hf | ⟨f, -, rfl⟩
  · exact .inl (hf.mem (not_exists.mp hb) (not_exists.mp hs))
  · exact .inl rfl

end Sys2Proof.Machine.Proofs

/-! SUPPORT. The invariant of the machine: it holds after initialisation and every step keeps it. -/

namespace Sys2Proof.Machine.Proofs

open Sys2Proof.Machine.Laws

/-! ### The reset state -/

theorem resetWith_fontIntact (p : Params) : (State.resetWith p).fontIntact := by
  intro a h
  simp [State.readByte, State.resetWith, Memory.read, initByte, h]

theorem resetWith_readByte_above (p : Params) {a : Nat} (h : fontLen ≤ a) : (State.resetWith p).readByte a = 0 := by
  simp [State.readByte, State.resetWith, Memory.read, initByte, Nat.not_lt.mpr h]

theorem resetWith_initialValues (p : Params) : InitialValues (State.resetWith p) where
  v r := by simp [State.reg, State.resetWith]
  i := rfl
  pc := rfl
  sp := rfl
  stack j := by simp [State.resetWith]
  dt := rfl
  st := rfl
  fb := blank_pixel
  redraw := rfl
  font := resetWith_fontIntact p
  mem _ h := resetWith_readByte_above p h
  await := rfl
  fault := rfl

/-! ### Building the invariant -/

/-- The invariant of a state in which nothing waits. -/
theorem inv_of_idle {s : State} (hm : Memory.wf s.params s.mem) (hp : s.pc.toNat ≤ 0x10FE)
    (hs : ∀ j : Fin 16, (s.stack[j]).toNat ≤ 0x1000) (ha : s.await = none) : s.Inv where
  mem_wf := hm
  pc_le := hp
  stack_le := hs
  await_fault := .inl ha
  await_fetch x hx := by rw [ha] at hx; cases hx
  fresh_idle _ := ha

theorem resetWith_inv (p : Params) : (State.resetWith p).Inv :=
  inv_of_idle (nil_wf p) (show 0x200 ≤ 0x10FE by decide) (fun j => by simp [State.resetWith]) rfl

/-- The bookkeeping after an action other than `init` keeps the invariant. -/
theorem inv_actionDone {s : State} (h : s.Inv) : (s.actionDone false).Inv where
  mem_wf := h.mem_wf
  pc_le := h.pc_le
  stack_le := h.stack_le
  await_fault := h.await_fault
  await_fetch := h.await_fetch
  fresh_idle hfresh := by cases hfresh

/-- The timer stage keeps the invariant. -/
theorem inv_endCycle {s : State} (h : s.Inv) : s.endCycle.Inv := by
  rw [endCycle_eq]
  exact ⟨h.mem_wf, h.pc_le, h.stack_le, h.await_fault, h.await_fetch, h.fresh_idle⟩

/-! ### The host's actions -/

/-- `load` keeps the invariant: the longest ROM that fits ends at the last address (R351). -/
theorem hostLoad_inv {s : State} (rom : List Byte) (h : s.Inv) (hfresh : s.freshInit = true) :
    (s.hostLoad rom).Inv := by
  have ha : s.await = none := h.fresh_idle hfresh
  unfold State.hostLoad
  split
  next hfits =>
    have hlen : rom.length ≤ 3584 := by simpa [romFits] using hfits
    exact inv_of_idle (writeList_wf _ _ _ _ h.mem_wf (by unfold progBase memSize; omega)) h.pc_le h.stack_le ha
  next => exact inv_of_idle h.mem_wf h.pc_le h.stack_le ha

theorem hostClearRedraw_inv {s : State} (h : s.Inv) : s.hostClearRedraw.Inv :=
  ⟨h.mem_wf, h.pc_le, h.stack_le, h.await_fault, h.await_fetch, h.fresh_idle⟩

/-! ### The cycle -/

theorem raiseFault_inv {s : State} (f : FaultRecord) (h : s.Inv) (ha : s.await = none) : (s.raiseFault f).Inv :=
  inv_of_idle h.mem_wf h.pc_le h.stack_le ha

/-- The await step keeps the invariant: with no key pressed it changes nothing, and else it advances over the
Fx0A, which stands within the fetch range (R295). -/
theorem awaitStep_inv {s : State} {x : RegIdx} (h : s.Inv) (hx : s.await = some x) : (s.awaitStep x).Inv := by
  unfold State.awaitStep
  split
  next k _ =>
    obtain ⟨hpc, -⟩ := h.await_fetch x hx
    exact inv_of_idle h.mem_wf (advance_pc_le s hpc) h.stack_le rfl
  next => exact h

/-- A write that passes the check of each of its bytes keeps the canonical form. -/
theorem writeList_wf_of_checkWrite {p q : Params} {m : Memory} {a : Nat} {bs : List Byte} (hm : Memory.wf p m)
    (hpass : ∀ j < bs.length, checkWrite q (a + j) = none) : Memory.wf p (Memory.writeList p m a bs) := by
  cases bs with
  | nil => exact hm
  | cons b bs =>
    have hlast := ((checkWrite_eq_none q _).mp (hpass bs.length (by simp))).1
    exact writeList_wf p m a _ hm (by unfold memSize; simp only [List.length_cons]; omega)

theorem exec_mem_wf {i : Instr} {s t : State} (h : exec i s = .next t) (hm : Memory.wf s.params s.mem) :
    Memory.wf t.params t.mem := by
  rw [exec_params h]
  rcases exec_mem_inv h with he | ⟨a, bs, he, hpass⟩
  · rwa [he]
  · rw [he]
    exact writeList_wf_of_checkWrite hm hpass

/-- Every address an instruction leaves on the stack stood there, or is PC + 2 of the call that pushed it
(R37, R147). -/
theorem exec_stack_le {i : Instr} {s t : State} (h : exec i s = .next t) (hp : s.pc.toNat ≤ 0xFFE)
    (hs : ∀ j : Fin 16, (s.stack[j]).toNat ≤ 0x1000) : ∀ j : Fin 16, (t.stack[j]).toNat ≤ 0x1000 := by
  intro j
  by_cases hc : ∃ nnn, i = .call nnn
  · obtain ⟨nnn, rfl⟩ := hc
    rcases exec_call_inv h with ⟨h16, rfl⟩ | ⟨-, rfl⟩
    · have hret := pc_add_two s hp
      have hj := hs j
      simp only [Fin.getElem_fin, Vector.getElem_set] at hj ⊢
      split
      · omega
      · exact hj
    · exact hs j
  by_cases hr : i = .ret
  · subst hr
    rcases exec_ret_inv h with ⟨-, rfl⟩ | ⟨-, rfl⟩ <;> exact hs j
  rcases exec_frame i s t h with hf | ⟨f, -, rfl⟩
  · rw [(hf.stack (not_exists.mp hc) hr).2]
    exact hs j
  · exact hs j

/-- The rest of a cycle after the instruction keeps the invariant: nothing waits, or the Fx0A just fetched does,
with PC still on it (R294). -/
theorem exec_inv {i : Instr} {s t : State} (h : s.Inv) (hfault : s.fault = none) (hfetch : s.fetches i)
    (he : exec i s = .next t) : (t.endCycle.actionDone false).Inv := by
  obtain ⟨hidle, hpc, hdec⟩ := hfetch
  have hm := exec_mem_wf he h.mem_wf
  have hp := exec_pc_le i s t he hpc h.stack_le
  have hs := exec_stack_le he hpc h.stack_le
  have hidleInv : t.await = none → (t.endCycle.actionDone false).Inv := fun ha =>
    inv_actionDone (inv_endCycle (inv_of_idle hm hp hs ha))
  rcases exec_frame i s t he with hf | ⟨f, -, rfl⟩
  · rcases hf.await with ha | ⟨x, rfl, rfl⟩
    · exact hidleInv (ha.trans hidle)
    · rw [endCycle_eq]
      exact ⟨hm, hp, hs, .inr hfault, fun y hy => by cases hy; exact ⟨hpc, hdec⟩, fun hfresh => by cases hfresh⟩
  · exact hidleInv hidle

theorem cycle_inv {s t : State} (h : s.Inv) (hc : s.cycle = .next t) : (t.actionDone false).Inv := by
  rcases cycle_cases s t hc with ⟨-, rfl⟩ | ⟨-, x, hx, rfl⟩ | ⟨-, ha, ⟨f, rfl⟩, -⟩ | ⟨hfault, i, u, hi, hu, rfl⟩
  · exact inv_actionDone h
  · exact inv_actionDone (inv_endCycle (awaitStep_inv h hx))
  · exact inv_actionDone (raiseFault_inv f h ha)
  · exact exec_inv h hfault hi hu

theorem step_inv {s t : State} (h : s.Inv) (hstep : step s = .next t) : t.Inv := by
  rcases step_cases s t hstep with ⟨-, rfl⟩ | ⟨⟨rom, -, -, rfl⟩, hfresh⟩ | ⟨-, rfl⟩ | ⟨-, u, hu, rfl⟩
  · obtain ⟨hm, hp, hs, -, -, -⟩ := resetWith_inv s.params
    exact inv_of_idle hm hp hs rfl
  · exact inv_actionDone (hostLoad_inv rom h hfresh)
  · exact inv_actionDone (hostClearRedraw_inv h)
  · exact cycle_inv h hu

/-- Settles O47: the reset values are those of R49, and with nothing stored and nothing waiting they meet the
invariant. -/
theorem resetValuesAndInvariant : Obligations.ResetValuesAndInvariant := fun p =>
  ⟨resetWith_initialValues p, resetWith_inv p⟩

/-- Settles O48, along the host's four actions and the four ways a cycle can go. -/
theorem stepKeepsInvariant : Obligations.StepKeepsInvariant := fun _ _ => step_inv

end Sys2Proof.Machine.Proofs

/-! SUPPORT. The font region: a program's stores pass the check of R77 only above it, and the host loads above it. -/

namespace Sys2Proof.Machine.Proofs

open Sys2Proof.Machine.Laws

/-- t has the parameters of s, and its font region reads as that of s. -/
structure SameFont (s t : State) : Prop where
  params : t.params = s.params
  bytes  : ∀ a < fontLen, t.readByte a = s.readByte a

theorem SameFont.fontIntact {s t : State} (h : SameFont s t) (hs : s.fontIntact) : t.fontIntact := fun a ha => by
  rw [h.bytes a ha, hs a ha, h.params]

theorem sameFont_of_mem_eq {s t : State} (hp : t.params = s.params) (hm : t.mem = s.mem) : SameFont s t :=
  ⟨hp, fun a _ => by rw [State.readByte, State.readByte, hp, hm]⟩

/-- A run of bytes whose addresses all lie above the font region leaves it as it was. -/
theorem sameFont_of_writeList {s t : State} {a : Nat} {bs : List Byte} (hp : t.params = s.params)
    (hm : t.mem = Memory.writeList s.params s.mem a bs) (habove : ∀ j < bs.length, fontLen ≤ a + j) :
    SameFont s t where
  params := hp
  bytes b hb := by
    rw [State.readByte, State.readByte, hp, hm]
    refine read_writeList_outside s.params s.mem a bs b ?_
    by_contra hin
    have := habove (b - a) (by omega)
    omega

theorem hostLoad_sameFont (s : State) (rom : List Byte) : SameFont s (s.hostLoad rom) := by
  unfold State.hostLoad
  split
  · exact sameFont_of_writeList rfl rfl fun j _ => by unfold fontLen progBase; omega
  · exact sameFont_of_mem_eq rfl rfl

/-- Under FONT_WRITE_POLICY = fault an address that passes the check of a write is above the font region (R77). -/
theorem fontLen_le_of_checkWrite {p : Params} {a : Nat} (hpol : p.fontWrite = .fault)
    (hpass : checkWrite p a = none) : fontLen ≤ a := by
  obtain ⟨-, hfont⟩ := (checkWrite_eq_none p a).mp hpass
  by_contra hlow
  have hallow := hfont (by unfold fontLen at hlow; omega)
  rw [hpol] at hallow
  cases hallow

theorem exec_sameFont {i : Instr} {s t : State} (hpol : s.params.fontWrite = .fault) (h : exec i s = .next t) :
    SameFont s t := by
  rcases exec_mem_inv h with hm | ⟨a, bs, hm, hpass⟩
  · exact sameFont_of_mem_eq (exec_params h) hm
  · exact sameFont_of_writeList (exec_params h) hm fun j hj => fontLen_le_of_checkWrite hpol (hpass j hj)

theorem cycle_sameFont {s t : State} (hpol : s.params.fontWrite = .fault) (h : s.cycle = .next t) :
    SameFont s t := by
  rcases cycle_cases s t h with ⟨-, rfl⟩ | ⟨-, x, -, rfl⟩ | ⟨-, -, ⟨f, rfl⟩, -⟩ | ⟨-, i, u, -, hu, rfl⟩
  · exact sameFont_of_mem_eq rfl rfl
  · exact sameFont_of_mem_eq (by simp) (by simp)
  · exact sameFont_of_mem_eq rfl rfl
  · obtain ⟨hp, hb⟩ := exec_sameFont hpol hu
    rw [endCycle_eq]
    exact ⟨hp, hb⟩

/-- Settles O49: `init` writes FONT itself, and every other action leaves the region as it was. -/
theorem stepKeepsFontRegion : Obligations.StepKeepsFontRegion := by
  intro s t hpol hfont hstep
  have finish : SameFont s t → t.fontIntact ∧ t.params = s.params := fun h => ⟨h.fontIntact hfont, h.params⟩
  rcases step_cases s t hstep with ⟨-, rfl⟩ | ⟨⟨rom, -, -, rfl⟩, -⟩ | ⟨-, rfl⟩ | ⟨-, u, hu, rfl⟩
  · exact ⟨resetWith_fontIntact s.params, rfl⟩
  · obtain ⟨hp, hb⟩ := hostLoad_sameFont s rom
    exact finish ⟨hp, hb⟩
  · exact finish (sameFont_of_mem_eq rfl rfl)
  · obtain ⟨hp, hb⟩ := cycle_sameFont hpol hu
    exact finish ⟨hp, hb⟩

end Sys2Proof.Machine.Proofs

/-! SUPPORT. Which instructions write each piece of the state, and which read the host's inputs. -/

namespace Sys2Proof.Machine.Proofs

open Sys2Proof.Machine.Laws

/-! ## Who writes what

An instruction that does not fault keeps what `exec_frame` says, and one that faults changes only the latch. The frame
does not speak of the general registers, which have their own lemma. -/

/-! ### SP and STACK -/

/-- Settles O50, from the frame of the other instructions and the inversions of 2nnn and 00EE. -/
theorem onlyCallAndReturnMoveStack : Obligations.OnlyCallAndReturnMoveStack := by
  intro i s t h
  refine ⟨fun hcall hret => ?_, ?_, ?_⟩
  · rcases exec_frame i s t h with hf | ⟨f, -, rfl⟩
    · exact hf.stack hcall hret
    · exact ⟨rfl, rfl⟩
  · rintro nnn rfl
    rcases exec_call_inv h with ⟨-, rfl⟩ | ⟨hfull, rfl⟩
    · exact .inl rfl
    · exact .inr ⟨hfull, rfl, rfl⟩
  · rintro rfl
    rcases exec_ret_inv h with ⟨h0, rfl⟩ | ⟨hempty, rfl⟩
    · exact .inl (Nat.sub_add_cancel h0)
    · exact .inr ⟨hempty, rfl, rfl⟩

/-! ### REDRAW and FB -/

/-- No instruction clears REDRAW (R41, R341). -/
theorem exec_keeps_redraw {i : Instr} {s t : State} (h : exec i s = .next t) (hs : s.redraw = true) :
    t.redraw = true := by
  rcases exec_frame i s t h with hf | ⟨f, -, rfl⟩
  · by_cases hdraw : i = .cls ∨ ∃ x y n, i = .drw x y n
    · exact hf.redraw hdraw
    · obtain ⟨hcls, hdrw⟩ := not_or.mp hdraw
      have hsame := hf.fb hcls fun x y n hi => hdrw ⟨x, y, n, hi⟩
      rw [hsame.2, hs]
  · exact hs

theorem cycle_keeps_redraw {s t : State} (h : s.cycle = .next t) (hs : s.redraw = true) : t.redraw = true := by
  rcases cycle_cases s t h with ⟨-, rfl⟩ | ⟨-, x, -, rfl⟩ | ⟨-, -, ⟨f, rfl⟩, -⟩ | ⟨-, i, u, -, hu, rfl⟩
  · exact hs
  · rw [endCycle_redraw, awaitStep_redraw, hs]
  · exact hs
  · rw [endCycle_redraw, exec_keeps_redraw hu hs]

theorem step_clears_redraw {s t : State} (h : step s = .next t) (hs : s.redraw = true) (ht : t.redraw = false) :
    s.script.head? = some .init ∨ s.script.head? = some .clearRedraw := by
  rcases step_cases s t h with ⟨⟨rest, hi⟩, -⟩ | ⟨⟨rom, rest, -, rfl⟩, -⟩ | ⟨⟨rest, hc⟩, -⟩ | ⟨-, u, hu, rfl⟩
  · exact .inl (by rw [hi, List.head?_cons])
  · rw [hostLoad_eq, actionDone_redraw, hs] at ht
    cases ht
  · exact .inr (by rw [hc, List.head?_cons])
  · rw [actionDone_redraw, cycle_keeps_redraw hu hs] at ht
    cases ht

/-- Settles O51: a step clears REDRAW only by a host action, and the two drawing instructions are the frame's
exceptions for FB and REDRAW. -/
theorem redrawSetByDrawingClearedByHost : Obligations.RedrawSetByDrawingClearedByHost := by
  refine ⟨fun s t => step_clears_redraw, fun i s t h hcls hdrw => ?_, fun i s t h _ ht hdraw => ?_⟩
  · rcases exec_frame i s t h with hf | ⟨f, -, rfl⟩
    · exact (hf.fb hcls hdrw).symm
    · exact ⟨rfl, rfl⟩
  · rcases exec_frame i s t h with hf | ⟨f, -, rfl⟩
    · exact hf.redraw hdraw
    · cases ht

/-! ### The general registers -/

theorem writeResult_keeps_reg {s t : State} {x r : RegIdx} {b : Byte} (h : s.writeResult x b = .next t)
    (hr : r ≠ x) : t.reg r = s.reg r := by
  cases h
  rw [advance_reg, setReg_reg_ne s b hr]

theorem writeFlagged_keeps_reg {s t : State} {x r : RegIdx} {res flag : Byte}
    (h : s.writeFlagged x res flag = .next t) (hr : ¬ (r = x ∨ r = vf)) : t.reg r = s.reg r := by
  obtain ⟨hx, hvf⟩ := not_or.mp hr
  cases h
  rw [advance_reg]
  by_cases he : x = vf
  · rw [he, writeFr_reg_vf, if_neg hvf]
  · rw [writeFr_reg s x r res flag he, if_neg hvf, if_neg hx]

theorem loadBytes_length {s : State} {a n : Nat} {bs : List Byte} (h : s.loadBytes a n = .ok bs) :
    bs.length = n := by
  rw [loadBytes_eq] at h
  split at h
  · cases h
  · cases h
    simp

theorem load_keeps_reg {s t : State} {x r : RegIdx} (h : exec (.load x) s = .next t) (hr : ¬ r ≤ x) :
    t.reg r = s.reg r := by
  rcases commit_map_inv h with ⟨bs, hbs, rfl⟩ | ⟨f, -, rfl⟩
  · have habove : bs.length ≤ r.val := by
      rw [loadBytes_length hbs]
      exact Fin.not_le.mp hr
    rw [advance_reg, setLowRegs_reg, List.getElem?_eq_none habove, Option.getD_none]
  · rfl

/-- An instruction that R32 and R31 do not list for a register leaves it alone. -/
theorem exec_keeps_reg {i : Instr} {s t : State} {r : RegIdx} (h : exec i s = .next t) (hr : ¬ mayWriteReg i r) :
    t.reg r = s.reg r := by
  cases i with
  | ldImm x | addImm x | mov x | or x | and x | xor x | rnd x | ldXDt x => exact writeResult_keeps_reg h hr
  | add x | sub x | shr x | subn x | shl x => exact writeFlagged_keeps_reg h hr
  | ldXK x =>
    cases h
    unfold State.keyWait
    split
    · rw [advance_reg, setReg_reg_ne s _ hr]
    · rfl
  | drw x y n =>
    rcases commit_map_inv h with ⟨rows, -, rfl⟩ | ⟨f, -, rfl⟩
    · exact setReg_reg_ne s _ hr
    · rfl
  | load x => exact load_keeps_reg h hr
  | ret => rcases exec_ret_inv h with ⟨-, rfl⟩ | ⟨-, rfl⟩ <;> rfl
  | call => rcases exec_call_inv h with ⟨-, rfl⟩ | ⟨-, rfl⟩ <;> rfl
  | bcd | store => rcases commit_store_inv h with ⟨rfl, -⟩ | ⟨f, rfl⟩ <;> rfl
  | skp | sknp => rcases commit_map_inv h with ⟨k, -, rfl⟩ | ⟨f, -, rfl⟩ <;> rfl
  | cls | jp | jpV0 | seImm | sneImm | seReg | sneReg | ldI | addIX | ldFX | ldDtX | ldStX =>
    cases h
    rfl

/-- Settles O52: every instruction keeps the registers it is not listed for. -/
theorem onlyListedInstructionsWriteRegister : Obligations.OnlyListedInstructionsWriteRegister := by
  intro i s t r h hne
  by_contra hr
  exact hne (exec_keeps_reg h hr)

/-! ### I, DT, ST and AWAIT -/

/-- Settles O53, read off the frame of the instruction. -/
theorem onlyListedInstructionsWriteSpecials : Obligations.OnlyListedInstructionsWriteSpecials := by
  intro i s t h
  rcases exec_frame i s t h with hf | ⟨f, -, rfl⟩
  · refine ⟨fun hi => ?_, fun hdt => ?_, fun hst => ?_, fun ha => ?_⟩
    · by_contra hno
      simp only [not_or, not_exists] at hno
      obtain ⟨hldI, haddIX, hldFX⟩ := hno
      exact hi (hf.index hldI haddIX hldFX)
    · by_contra hno
      exact hdt (hf.dt (not_exists.mp hno))
    · by_contra hno
      exact hst (hf.st (not_exists.mp hno))
    · obtain ⟨x, hx, -⟩ := hf.await.resolve_left ha
      exact ⟨x, hx⟩
  · exact ⟨fun hi => absurd rfl hi, fun hdt => absurd rfl hdt, fun hst => absurd rfl hst, fun ha => absurd rfl ha⟩

/-! ## Who reads the inputs

KEYS and RAND stand in the script (log 6, log 7), so an operation that reads neither commutes with a change of the
script. -/

/-- Settles O29: the action at the head of the script supplies both. -/
theorem inputsComeFromTheHostAction : Obligations.InputsComeFromTheHostAction := by
  intro s keys rand rest h
  exact ⟨by rw [State.keys, h], by rw [State.rand, h]⟩

section
variable {s t : State} (script : List HostAction)

theorem writeFlagged_script {x : RegIdx} {res flag : Byte} (h : s.writeFlagged x res flag = .next t) :
    ({ s with script := script } : State).writeFlagged x res flag = .next { t with script := script } := by
  cases h
  unfold State.writeFlagged State.writeFr
  split <;> rfl

theorem commit_map_script {α : Type} {r : Except FaultRecord α} {g g' : α → State}
    (hg : ∀ a, g' a = { g a with script := script }) (h : s.commit (r.map g) = .next t) :
    ({ s with script := script } : State).commit (r.map g') = .next { t with script := script } := by
  rcases commit_map_inv h with ⟨a, rfl, rfl⟩ | ⟨f, rfl, rfl⟩
  · exact congrArg Host.Outcome.next (hg a)
  · rfl

theorem commit_store_script {a : Nat} {bs : List Byte}
    (h : s.commit ((s.storeBytes a bs).map State.advance) = .next t) :
    ({ s with script := script } : State).commit
      ((({ s with script := script } : State).storeBytes a bs).map State.advance) =
        .next { t with script := script } := by
  unfold State.storeBytes at h ⊢
  cases hff : firstFault (checkWrite s.params) a bs.length <;>
  · simp only [hff] at h ⊢
    cases h
    rfl

theorem call_script {nnn : BitVec 12} (h : exec (.call nnn) s = .next t) :
    exec (.call nnn) { s with script := script } = .next { t with script := script } := by
  rcases exec_call_inv h with ⟨h16, rfl⟩ | ⟨hfull, rfl⟩
  · exact exec_call_of_lt { s with script := script } nnn h16
  · exact exec_call_full { s with script := script } nnn hfull

theorem ret_script (h : exec .ret s = .next t) :
    exec .ret { s with script := script } = .next { t with script := script } := by
  rcases exec_ret_inv h with ⟨h0, rfl⟩ | ⟨hempty, rfl⟩
  · exact exec_ret_of_pos { s with script := script } h0
  · exact exec_ret_empty { s with script := script } hempty

/-- An instruction that reads neither KEYS nor RAND does the same under any script (R42, R43). -/
theorem exec_script {i : Instr} (hi : ¬ readsInput i) (h : exec i s = .next t) :
    exec i { s with script := script } = .next { t with script := script } := by
  cases i with
  | skp | sknp | ldXK | rnd => exact absurd trivial hi
  | call => exact call_script script h
  | ret => exact ret_script script h
  | add | sub | shr | subn | shl => exact writeFlagged_script script h
  | bcd | store => exact commit_store_script script h
  | load | drw => exact commit_map_script script (fun _ => rfl) h
  | cls | jp | jpV0 | seImm | sneImm | seReg | sneReg | ldImm | addImm | mov | or | and | xor | ldI | ldXDt | ldDtX
  | ldStX | addIX | ldFX =>
    cases h
    rfl

end

/-- Settles O55, one operation's commuting lemma per kind of instruction. -/
theorem onlyListedInstructionsReadInputs : Obligations.OnlyListedInstructionsReadInputs :=
  fun _ _ _ script hi h => exec_script script hi h

end Sys2Proof.Machine.Proofs

/-! SUPPORT. The bytes at I, I+1, ... that an instruction reads or stores: the fault of the first that cannot be
accessed, and what memory holds once all are stored. -/

namespace Sys2Proof.Machine.Proofs

open Sys2Proof.Machine.Laws

/-! ### The offsets from I -/

section
variable (s : State) (j : Nat)

theorem effAddr_zero_add : s.effAddr 0 + j = s.effAddr j := rfl

theorem checkRead_effAddr_eq_none : checkRead (s.effAddr j) = none ↔ s.readable j := checkRead_eq_none _

theorem checkWrite_effAddr_eq_none : checkWrite s.params (s.effAddr j) = none ↔ s.writable j :=
  checkWrite_eq_none _ _

end

theorem checkRead_out_of_range {a : Nat} (h : 0xFFF < a) : checkRead a = some ⟨.memOutOfRange, a⟩ := if_pos h

theorem checkWrite_out_of_range (p : Params) {a : Nat} (h : 0xFFF < a) :
    checkWrite p a = some ⟨.memOutOfRange, a⟩ := if_pos h

theorem checkWrite_font {p : Params} {a : Nat} (h : a ≤ 0x04F) (hpol : p.fontWrite = .fault) :
    checkWrite p a = some ⟨.fontWrite, a⟩ := by
  rw [checkWrite, if_neg (by omega), if_pos ⟨h, hpol⟩]

/-! ### The first byte that fails -/

section
variable {s : State} {j : Nat}

/-- A meaning that reads n bytes from I takes the fault of the first one out of range (R76, R79). -/
theorem commit_load_first_failing {n : Nat} (g : List Byte → State) (hj : j < n) (hfail : ¬ s.readable j)
    (hpass : ∀ k < j, s.readable k) :
    s.commit ((s.loadBytes (s.effAddr 0) n).map g) = .next (s.raiseFault ⟨.memOutOfRange, s.effAddr j⟩) := by
  have hfirst : firstFault checkRead (s.effAddr 0) n = some ⟨.memOutOfRange, s.effAddr j⟩ :=
    (firstFault_eq_some _ _ _ _).mpr ⟨j, hj, checkRead_out_of_range (Nat.not_le.mp hfail),
      fun k hk => (checkRead_effAddr_eq_none s k).mpr (hpass k hk)⟩
  rw [loadBytes_eq, hfirst]
  rfl

/-- A meaning that stores bytes from I up takes the fault of the first one that cannot be written (R77, R79). -/
theorem commit_store_first_failing {bs : List Byte} {f : FaultRecord} (hj : j < bs.length)
    (hfail : checkWrite s.params (s.effAddr j) = some f) (hpass : ∀ k < j, s.writable k) :
    s.commit ((s.storeBytes (s.effAddr 0) bs).map State.advance) = .next (s.raiseFault f) := by
  have hfirst : firstFault (checkWrite s.params) (s.effAddr 0) bs.length = some f :=
    (firstFault_eq_some _ _ _ _).mpr ⟨j, hj, hfail, fun k hk => (checkWrite_effAddr_eq_none s k).mpr (hpass k hk)⟩
  rw [State.storeBytes, hfirst]
  rfl

theorem bcdDigits_length (b : Byte) : (bcdDigits b).length = 3 := rfl

theorem exec_bcd_first_failing (x : RegIdx) {f : FaultRecord} (hfail : checkWrite s.params (s.effAddr j) = some f)
    (hpass : ∀ k < j, s.writable k) (hj : j < 3) : exec (.bcd x) s = .next (s.raiseFault f) :=
  commit_store_first_failing (by rwa [bcdDigits_length]) hfail hpass

theorem exec_store_first_failing (x : RegIdx) {f : FaultRecord}
    (hfail : checkWrite s.params (s.effAddr j) = some f) (hpass : ∀ k < j, s.writable k) (hj : j ≤ x.val) :
    exec (.store x) s = .next (s.raiseFault f) :=
  commit_store_first_failing (by rw [lowRegs_length]; omega) hfail hpass

end

/-- Settles O35: the first byte out of range is the first fault of the checked read. -/
theorem readsReportFirstFailingByte : Obligations.ReadsReportFirstFailingByte := fun _ _ _ _ _ hfail hpass =>
  ⟨fun hj => commit_load_first_failing _ (Nat.lt_succ_of_le hj) hfail hpass,
    fun hj => commit_load_first_failing _ hj hfail hpass⟩

/-- Settles O36: a byte beyond the space and a byte of the protected font region each fail the check of the write,
and the first that does is the fault taken. -/
theorem writesReportFirstFailingByte : Obligations.WritesReportFirstFailingByte := by
  intro s x j hpass
  refine ⟨fun hrange => ?_, fun hfont hpol => ?_⟩
  · have hfail := checkWrite_out_of_range s.params hrange
    exact ⟨exec_bcd_first_failing x hfail hpass, exec_store_first_failing x hfail hpass⟩
  · have hfail := checkWrite_font hfont hpol
    exact ⟨exec_bcd_first_failing x hfail hpass, exec_store_first_failing x hfail hpass⟩

/-! ### The bytes stored -/

/-- A meaning that stores bytes from I up, all of which can be written, stores them and advances (R77). -/
theorem commit_store_of_writable {s : State} {bs : List Byte} (h : ∀ j < bs.length, s.writable j) :
    s.commit ((s.storeBytes (s.effAddr 0) bs).map State.advance) =
      .next ({ s with mem := Memory.writeList s.params s.mem (s.effAddr 0) bs } : State).advance := by
  rw [storeBytes_ok s (s.effAddr 0) bs fun j hj => (checkWrite_effAddr_eq_none s j).mpr (h j hj)]
  rfl

theorem exec_store_of_writable {s : State} {x : RegIdx} (h : ∀ j ≤ x.val, s.writable j) :
    exec (.store x) s =
      .next ({ s with mem := Memory.writeList s.params s.mem (s.effAddr 0) (s.lowRegs x) } : State).advance :=
  commit_store_of_writable fun j hj => h j (by rw [lowRegs_length] at hj; omega)

/-- Every state with the memory that Fx55 leaves reads V0..Vx of before at I..I+x (R245). -/
theorem readByte_of_stored_lowRegs {s u : State} {x r : RegIdx} (hp : u.params = s.params)
    (hm : u.mem = Memory.writeList s.params s.mem (s.effAddr 0) (s.lowRegs x)) (hr : r ≤ x) :
    u.readByte (s.effAddr r.val) = s.reg r := by
  have hlen : r.val < (s.lowRegs x).length := by
    rw [lowRegs_length]
    exact Nat.lt_succ_of_le hr
  rw [State.readByte, hp, hm, ← effAddr_zero_add s r.val, read_writeList_inside _ _ _ _ _ hlen, lowRegs_getElem]

/-- Settles O38: I and I+1 hold V0 and V1, and PC = I is within the fetch range since I+1 could be written. -/
theorem storedBytesAreFetched : Obligations.StoredBytesAreFetched := by
  intro s u x hx hw
  refine ⟨_, exec_store_of_writable hw, fun hm hp hpc => ?_⟩
  have hread (r : RegIdx) (hr : r ≤ x) : u.readByte (s.effAddr r.val) = s.reg r :=
    readByte_of_stored_lowRegs hp hm hr
  have hrange : s.i.toNat + 1 ≤ 0xFFF := (hw 1 hx).1
  rw [← hread 0 (Fin.zero_le x), ← hread 1 hx, fetch_ok u (by rw [hpc]; omega), hpc]
  rfl

/-- A byte that a run of stored bytes changes is one of those stored. -/
theorem exists_lt_of_read_writeList_ne {p : Params} {m : Memory} {a b : Nat} {bs : List Byte}
    (h : Memory.read p (Memory.writeList p m a bs) b ≠ Memory.read p m b) : ∃ off < bs.length, b = a + off := by
  have hin : ¬ (b < a ∨ a + bs.length ≤ b) := fun hout => h (read_writeList_outside p m a bs b hout)
  exact ⟨b - a, by omega, by omega⟩

/-- A byte that a storing meaning changes stands at an offset from I that it stores: a fault changes none. -/
theorem commit_store_changes {s t : State} {a : Nat} {bs : List Byte}
    (h : s.commit ((s.storeBytes (s.effAddr 0) bs).map State.advance) = .next t)
    (hne : t.readByte a ≠ s.readByte a) : ∃ off < bs.length, a = s.effAddr off := by
  rcases commit_store_inv h with ⟨rfl, -⟩ | ⟨f, rfl⟩
  · exact exists_lt_of_read_writeList_ne hne
  · exact absurd rfl hne

/-- An instruction other than Fx33 and Fx55 reads memory as before (R70). -/
theorem exec_sameBytes {i : Instr} {s t : State} (h : exec i s = .next t) (hbcd : ∀ x, i ≠ .bcd x)
    (hstore : ∀ x, i ≠ .store x) : SameBytes s t := by
  intro a
  rcases exec_frame i s t h with hf | ⟨f, -, rfl⟩
  · rw [State.readByte, State.readByte, hf.params, hf.mem hbcd hstore]
  · rfl

/-- Settles O54: the two instructions that store change bytes they store, and every other keeps them all. -/
theorem onlyBcdAndStoreWriteMemory : Obligations.OnlyBcdAndStoreWriteMemory := by
  intro i s t a h hne
  by_cases hb : ∃ x, i = .bcd x
  · obtain ⟨x, rfl⟩ := hb
    obtain ⟨off, hoff, ha⟩ := commit_store_changes h hne
    exact .inl ⟨x, off, rfl, hoff, ha⟩
  by_cases hs : ∃ x, i = .store x
  · obtain ⟨x, rfl⟩ := hs
    obtain ⟨off, hoff, ha⟩ := commit_store_changes h hne
    rw [lowRegs_length] at hoff
    exact .inr ⟨x, off, rfl, Nat.le_of_lt_succ hoff, ha⟩
  exact absurd (exec_sameBytes h (not_exists.mp hb) (not_exists.mp hs) a) hne

end Sys2Proof.Machine.Proofs

/-! SUPPORT. The decoder and the encoder: decoding an encoded instruction, what the decoder says of each word, and the
words of each row of the opcode table. -/

namespace Sys2Proof.Proofs

open Sys2Proof.Laws

/-! ### Decoding an encoding -/

@[simp] theorem decode_encode (i : Instr) : decode (encode i) = .ok i := by
  cases i with
  | cls | ret => rfl
  | jp | call | ldI | jpV0 => simp [encode, decode]
  | seImm | sneImm | ldImm | addImm | rnd => simp [encode, decode]
  | seReg | sneReg | drw => simp [encode, decode]
  | mov | or | and | xor | add | sub | shr | subn | shl => simp [encode, decode, decode8]
  | skp | sknp => simp [encode, decode, decodeE]
  | ldXDt | ldXK | ldDtX | ldStX | addIX | ldFX | bcd | store | load => simp [encode, decode, decodeF]

/-- The decoder on bytes reads the word whose bytes lie in memory order (R73). -/
theorem decodeBytes_wordBytes (op : Word) (rest : List Byte) :
    decodeBytes (wordBytes op ++ rest) = (decode op).map (·, rest) := by
  have hword : op.extractLsb' 8 8 ++ op.extractLsb' 0 8 = op :=
    (BitVec.extractLsb'_append_extractLsb'_eq_extractLsb' rfl).trans BitVec.extractLsb'_eq_self
  show (decode (op.extractLsb' 8 8 ++ op.extractLsb' 0 8)).map (·, rest) = _
  rw [hword]

/-- Settles O2, one instruction at a time: the fields of a packed word are what was packed. -/
theorem decodeInvertsEncode : Obligations.DecodeInvertsEncode := by
  intro i rest
  refine ⟨decode_encode i, ?_⟩
  rw [decodeBytes_wordBytes, decode_encode]
  rfl

/-! ### The fields of a word as numbers, and legality by fields -/

section
variable (op : Word)

theorem fieldF_toNat : (fieldF op).toNat = op.toNat / 0x1000 := by
  rw [fieldF, BitVec.extractLsb'_toNat, Nat.shiftRight_eq_div_pow]
  omega

theorem fieldN_toNat : (fieldN op).toNat = op.toNat % 0x10 := by
  rw [fieldN, BitVec.extractLsb'_toNat, Nat.shiftRight_zero]

theorem fieldKK_toNat : (fieldKK op).toNat = op.toNat % 0x100 := by
  rw [fieldKK, BitVec.extractLsb'_toNat, Nat.shiftRight_zero]

/-- The six classes of R106, family by family, in the fields that the decoder reads. -/
theorem legalWord_iff : legalWord op = true ↔
    (fieldF op = 0x0 → op = 0x00E0 ∨ op = 0x00EE) ∧
    (fieldF op = 0x5 → fieldN op = 0) ∧
    (fieldF op = 0x8 → fieldN op ∈ [0x0, 0x1, 0x2, 0x3, 0x4, 0x5, 0x6, 0x7, 0xE]) ∧
    (fieldF op = 0x9 → fieldN op = 0) ∧
    (fieldF op = 0xE → fieldKK op ∈ [0x9E, 0xA1]) ∧
    (fieldF op = 0xF → fieldKK op ∈ [0x07, 0x0A, 0x15, 0x18, 0x1E, 0x29, 0x33, 0x55, 0x65]) := by
  simp [legalWord, ← fieldF_toNat, ← fieldN_toNat, ← fieldKK_toNat, BitVec.toNat_eq, aluVariants, keyVariants,
    miscVariants, imp_iff_not_or, and_assoc]

end

/-! ### What the decoder says of a word -/

section
variable {op : Word} {f n : BitVec 4} {kk : Byte}

theorem packNNN_of_family (hF : fieldF op = f) : packNNN f (fieldNNN op) = op := hF ▸ packNNN_fields op

theorem packXKK_of_family (hF : fieldF op = f) : packXKK f (fieldX op) (fieldKK op) = op := hF ▸ packXKK_fields op

theorem packXKK_of_fields (hF : fieldF op = f) (hK : fieldKK op = kk) : packXKK f (fieldX op) kk = op :=
  hK ▸ packXKK_of_family hF

theorem packXYN_of_fields (hF : fieldF op = f) (hN : fieldN op = n) :
    packXYN f (fieldX op) (fieldY op) n = op := hF ▸ hN ▸ packXYN_fields op

end

/-- What a decoder may say of a word: an instruction whose encoding the legal word is, or `unknown` with the illegal
word's name (R105, R106). -/
inductive Verdict (op : Word) : Except DecodeError Instr → Prop where
  /-- The word is legal. -/
  | known {i : Instr} (henc : encode i = op) (hlegal : legalWord op = true) : Verdict op (.ok i)
  /-- The word is illegal. -/
  | unknown (hillegal : ¬ legalWord op = true) : Verdict op (.error (.unknownOpcode op))

section
variable {op : Word}

theorem Verdict.encode_eq {i : Instr} : Verdict op (.ok i) → encode i = op
  | .known henc _ => henc

theorem Verdict.ok_iff_legal {r : Except DecodeError Instr} (hverdict : Verdict op r) :
    (∃ i, r = .ok i) ↔ legalWord op = true := by
  cases hverdict with
  | known _ hlegal => exact ⟨fun _ => hlegal, fun _ => ⟨_, rfl⟩⟩
  | unknown hillegal => exact ⟨fun ⟨_, hok⟩ => (nomatch hok), fun hlegal => absurd hlegal hillegal⟩

theorem Verdict.eq_unknown_of_illegal {r : Except DecodeError Instr} (hverdict : Verdict op r)
    (hillegal : legalWord op = false) : r = .error (.unknownOpcode op) := by
  cases hverdict with
  | known _ hlegal => exact absurd hlegal (Bool.eq_false_iff.mp hillegal)
  | unknown => rfl

theorem decode0_verdict (hF : fieldF op = 0x0) : Verdict op (decode0 op) := by
  unfold decode0
  split
  next hop => exact .known hop.symm (by rw [hop]; decide)
  split
  next hop => exact .known hop.symm (by rw [hop]; decide)
  next hcls hret => exact .unknown (by rw [legalWord_iff]; simp [hF, hcls, hret])

theorem decode8_verdict (hF : fieldF op = 0x8) : Verdict op (decode8 op) := by
  unfold decode8
  split
  case h_10 => exact .unknown (by rw [legalWord_iff]; simp_all)
  all_goals
    next hN => exact .known (packXYN_of_fields hF hN) (by rw [legalWord_iff]; simp [hF, hN])

theorem decodeE_verdict (hF : fieldF op = 0xE) : Verdict op (decodeE op) := by
  unfold decodeE
  split
  case h_3 => exact .unknown (by rw [legalWord_iff]; simp_all)
  all_goals
    next hK => exact .known (packXKK_of_fields hF hK) (by rw [legalWord_iff]; simp [hF, hK])

theorem decodeF_verdict (hF : fieldF op = 0xF) : Verdict op (decodeF op) := by
  unfold decodeF
  split
  case h_10 => exact .unknown (by rw [legalWord_iff]; simp_all)
  all_goals
    next hK => exact .known (packXKK_of_fields hF hK) (by rw [legalWord_iff]; simp [hF, hK])

/-- The families of R104 of which every word is legal. -/
theorem legalWord_of_full_family (hF : fieldF op ∉ [0x0, 0x5, 0x8, 0x9, 0xE, 0xF]) : legalWord op = true := by
  rw [legalWord_iff]
  simp_all

/-- The case `h_k` of the split is family k - 1 of R104, and `h_17` the arm that no value of F takes. -/
theorem decode_verdict (op : Word) : Verdict op (decode op) := by
  unfold decode
  split
  case h_1 hF => exact decode0_verdict hF
  case h_9 hF => exact decode8_verdict hF
  case h_15 hF => exact decodeE_verdict hF
  case h_16 hF => exact decodeF_verdict hF
  case h_2 hF | h_3 hF | h_11 hF | h_12 hF =>
    exact .known (packNNN_of_family hF) (legalWord_of_full_family (by rw [hF]; decide))
  case h_4 hF | h_5 hF | h_7 hF | h_8 hF | h_13 hF =>
    exact .known (packXKK_of_family hF) (legalWord_of_full_family (by rw [hF]; decide))
  case h_14 hF => exact .known (packXYN_of_fields hF rfl) (legalWord_of_full_family (by rw [hF]; decide))
  case h_6 hF | h_10 hF =>
    split
    next hN => exact .known (packXYN_of_fields hF hN) (by rw [legalWord_iff]; simp [hF, hN])
    next hN => exact .unknown (by rw [legalWord_iff]; simpa [hF] using hN)
  case h_17 =>
    exfalso
    generalize fieldF op = f at *
    revert f
    decide

end

/-- Settles O3: the decoder's verdict on a word it takes. -/
theorem encodeInvertsDecode : Obligations.EncodeInvertsDecode := by
  intro op i h
  have hverdict := decode_verdict op
  rw [h] at hverdict
  exact hverdict.encode_eq

/-- Settles O5: the decoder's verdict on a word, legal or illegal. -/
theorem decoderTakesExactlyLegalWords : Obligations.DecoderTakesExactlyLegalWords := fun op =>
  ⟨(decode_verdict op).ok_iff_legal, (decode_verdict op).eq_unknown_of_illegal⟩

/-! ### The words of a table row -/

section
variable {op p : Word}

theorem fieldF_of_mask (h : op &&& 0xF000#16 = p) : fieldF op = fieldF p := by
  rw [← h, ← packNNN_fields op, packNNN_mask, fieldF_packNNN, fieldF_packNNN]

theorem fieldF_fieldN_of_maskN (h : op &&& 0xF00F#16 = p) : fieldF op = fieldF p ∧ fieldN op = fieldN p := by
  rw [← h, ← packXYN_fields op, packXYN_maskN]
  simp

theorem fieldF_fieldKK_of_maskKK (h : op &&& 0xF0FF#16 = p) : fieldF op = fieldF p ∧ fieldKK op = fieldKK p := by
  rw [← h, ← packXKK_fields op, packXKK_maskKK]
  simp

end

/-- Settles O4: the fixed bits are those that the decoder matches on. -/
theorem rowWordsDecodeToTheirRow : Obligations.RowWordsDecodeToTheirRow := by
  intro op i h
  cases i with
  | cls | ret =>
    obtain rfl : op = _ := BitVec.and_allOnes.symm.trans h
    exact ⟨_, rfl, rfl⟩
  | jp | call | ldI | jpV0 | seImm | sneImm | ldImm | addImm | rnd | drw =>
    rw [decode, fieldF_of_mask h]
    simp [opcodeRow, fieldF]
  | seReg | sneReg | mov | or | and | xor | add | sub | shr | subn | shl =>
    obtain ⟨hF, hN⟩ := fieldF_fieldN_of_maskN h
    rw [decode, decode8, hF, hN]
    simp [opcodeRow, fieldF, fieldN]
  | skp | sknp | ldXDt | ldXK | ldDtX | ldStX | addIX | ldFX | bcd | store | load =>
    obtain ⟨hF, hK⟩ := fieldF_fieldKK_of_maskKK h
    rw [decode, decodeE, decodeF, hF, hK]
    simp [opcodeRow, fieldF, fieldKK]

end Sys2Proof.Proofs

/-! SUPPORT. The cycle: a step that fetches, the two faults of fetch and decode, and what a faulting cycle leaves. -/

namespace Sys2Proof.Machine.Proofs

open Sys2Proof.Machine.Laws

/-! ### A step that fetches -/

/-- A step that executes a fetched instruction runs it, then the end of the cycle, then the bookkeeping (R140). -/
theorem step_exec {s t : State} {i : Instr} (hready : s.ready) (hfetch : s.fetches i) (he : exec i s = .next t) :
    step s = .next (t.endCycle.actionDone false) := by
  obtain ⟨hcycle, hfault, -⟩ := hready
  obtain ⟨hidle, hpc, hdec⟩ := hfetch
  exact step_atCycle s _ hcycle (cycle_exec s t i hfault hidle hpc hdec he)

/-- Settles O6: the end of the cycle is the timer stage where no fault is latched, and nothing where one is. -/
theorem stepRunsDecodedInstruction : Obligations.StepRunsDecodedInstruction := by
  intro s t i hready hfetch he
  rw [step_exec hready hfetch he]
  rcases endCycle_cases t with ⟨hnone, hend⟩ | ⟨hsome, hend⟩ <;> rw [hend]
  · exact ⟨fun _ => rfl, fun hsome => absurd hnone hsome⟩
  · exact ⟨fun hnone => absurd hnone hsome, fun _ => rfl⟩

/-- Settles O8: the cycle ends at its fetch. -/
theorem fetchOutOfRangeLatches : Obligations.FetchOutOfRangeLatches := by
  rintro s ⟨hcycle, hfault, hidle⟩ hpc
  exact step_atCycle s _ hcycle (cycle_fetch_error s hfault hidle hpc)

/-- Settles O9: the decoder refuses an illegal word, and the cycle ends there. -/
theorem illegalWordLatches : Obligations.IllegalWordLatches := by
  rintro s ⟨hcycle, hfault, hidle⟩ hpc hillegal
  have hunknown := (Sys2Proof.Proofs.decode_verdict (s.readWord s.pc.toNat)).eq_unknown_of_illegal hillegal
  exact step_atCycle s _ hcycle (cycle_unknown s _ hfault hidle hpc hunknown)

/-! ### Precise faults -/

/-- An instruction that latches a fault changes nothing but the latch (R144). -/
theorem exec_fault_precise {i : Instr} {s t : State} (h : exec i s = .next t) (hs : s.fault = none)
    (ht : t.fault ≠ none) : t = { s with fault := t.fault } := by
  rcases exec_frame i s t h with hf | ⟨f, -, rfl⟩
  · exact absurd (hf.fault.trans hs) ht
  · rfl

/-- A cycle that latches a fault changes nothing but the latch, and runs no timer stage (R144, R145). -/
theorem cycle_fault_precise {s t : State} (h : s.cycle = .next t) (hs : s.fault = none) (ht : t.fault ≠ none) :
    t = { s with fault := t.fault } := by
  rcases cycle_cases s t h with ⟨hhalted, -⟩ | ⟨-, x, -, rfl⟩ | ⟨-, -, ⟨f, rfl⟩, -⟩ | ⟨-, i, u, -, hu, rfl⟩
  · exact absurd hs hhalted
  · rw [endCycle_fault, awaitStep_fault] at ht
    exact absurd hs ht
  · rfl
  · rcases endCycle_cases u with ⟨hnone, -⟩ | ⟨hsome, hend⟩
    · exact absurd ((endCycle_fault u).trans hnone) ht
    · rw [hend]
      exact exec_fault_precise hu hs hsome

/-- Settles O13: the step is the cycle and the bookkeeping, which leaves the latch. -/
theorem faultsArePrecise : Obligations.FaultsArePrecise := by
  intro s t hcycle hs hstep ht
  obtain ⟨u, hu, rfl⟩ := step_atCycle_inv s t hcycle hstep
  exact congrArg (State.actionDone · false) (cycle_fault_precise hu hs ht)

end Sys2Proof.Machine.Proofs

/-! SUPPORT. Control flow: where a jump, a skip, a call and a return leave PC, and that they leave the rest. -/

namespace Sys2Proof.Machine.Proofs

open Sys2Proof.Machine.Laws

/-! ### The call and the return -/

/-- An instruction that changes only SP, STACK and PC as data has the frame of a call or a return. -/
theorem onlyStack_of_eq {s t : State} (h : t = { s with sp := t.sp, stack := t.stack, pc := t.pc }) :
    OnlyStack s t :=
  ⟨h, fun _ => by rw [h]; rfl⟩

/-- Settles O17, by whether the stack is empty. -/
theorem returnPopsTheStack : Obligations.ReturnPopsTheStack := by
  refine fun s => ⟨fun h0 => ?_, exec_ret_empty s⟩
  have htop : s.sp.val - 1 < 16 := by omega
  exact ⟨_, exec_ret_of_pos s h0, Nat.sub_add_cancel h0, (Vector.getElem?_eq_getElem htop).symm, rfl,
    onlyStack_of_eq rfl⟩

/-- Settles O18, by whether the stack is full. -/
theorem callPushesReturnAddress : Obligations.CallPushesReturnAddress := by
  refine fun s nnn => ⟨fun h16 => ?_, exec_call_full s nnn⟩
  exact ⟨_, exec_call_of_lt s nnn h16, rfl, Vector.getElem?_set_self h16,
    fun j hj => Vector.getElem_set_ne h16 j.isLt hj.symm, target_toNat nnn, onlyStack_of_eq rfl⟩

/-- Settles O19: the return pops the slot that the call pushed. -/
theorem callReturnRoundTrip : Obligations.CallReturnRoundTrip := by
  intro s u nnn h16
  obtain ⟨t, hcall, hpush, hslot, -⟩ := (callPushesReturnAddress s nnn).1 h16
  refine ⟨t, hcall, fun hsp hstack => ?_⟩
  have hdepth : u.sp.val = s.sp.val + 1 := by rw [hsp, hpush]
  obtain ⟨w, hret, hpop, hpc, -⟩ := (returnPopsTheStack u).1 (by omega)
  have hrestored : w.sp = s.sp := Fin.ext (by omega)
  rw [hrestored, hstack, hslot] at hpc
  exact ⟨w, hret, Option.some.inj hpc, hrestored⟩

/-! ### The jumps -/

theorem onlyPc_setPc (s : State) (a : Word) : OnlyPc s (s.setPc a) := ⟨rfl, setPc_readByte s a⟩

/-- Settles O20: nnn and V0 are too small for their sum to leave 16 bits. -/
theorem jumpsSetPc : Obligations.JumpsSetPc := by
  intro s nnn
  have hsum := jpV0_toNat s nnn
  have hbound : (target nnn + zext16 (s.reg 0)).toNat ≤ 0x10FE := by omega
  exact ⟨⟨_, rfl, target_toNat nnn, onlyPc_setPc s _⟩, ⟨_, rfl, hsum, hbound, onlyPc_setPc s _⟩⟩

/-! ### The skips -/

theorem onlyPc_skipIf (s : State) (c : Bool) : OnlyPc s (s.skipIf c) := onlyPc_setPc s _

/-- A skip on equality, which 3xkk and 5xy0 share (R174, R176). -/
theorem skipIf_beq_pc (s : State) (a b : Byte) :
    (s.skipIf (a == b)).pc = if a = b then s.pc + 4 else s.pc + 2 := by
  simp only [skipIf_pc, beq_iff_eq]

/-- A skip on difference, which 4xkk and 9xy0 share (R175, R177). -/
theorem skipIf_bne_pc (s : State) (a b : Byte) :
    (s.skipIf (a != b)).pc = if a = b then s.pc + 2 else s.pc + 4 := by
  simp only [skipIf_pc, bne_iff_ne, ite_not]

/-- Settles O21: the skips of V[x] against kk. -/
theorem immediateSkips : Obligations.ImmediateSkips := fun s x kk =>
  ⟨⟨_, rfl, skipIf_beq_pc s (s.reg x) kk, onlyPc_skipIf s _⟩,
    ⟨_, rfl, skipIf_bne_pc s (s.reg x) kk, onlyPc_skipIf s _⟩⟩

/-- Settles O22: the skips of V[x] against V[y]. -/
theorem registerSkips : Obligations.RegisterSkips := fun s x y =>
  ⟨⟨_, rfl, skipIf_beq_pc s (s.reg x) (s.reg y), onlyPc_skipIf s _⟩,
    ⟨_, rfl, skipIf_bne_pc s (s.reg x) (s.reg y), onlyPc_skipIf s _⟩⟩

end Sys2Proof.Machine.Proofs

/-! SUPPORT. The ALU: its results and flags as numbers, and what an instruction that writes V[x], or V[x] and
VF, leaves. -/

namespace Sys2Proof.Machine.Proofs

open Sys2Proof.Machine.Laws

/-! ### Results and flags as numbers -/

section
variable (a b : Byte)

theorem trunc8_toNat (n : Nat) : (trunc8 n).toNat = n % 256 := BitVec.toNat_ofNat n 8

theorem add8_toNat : (add8 a b).toNat = (a.toNat + b.toNat) % 256 := trunc8_toNat _

theorem sub8_toNat : (sub8 a b).toNat = (a.toNat + 256 - b.toNat) % 256 := trunc8_toNat _

theorem flagByte_decide_toNat (p : Prop) [Decidable p] :
    (flagByte (decide p)).toNat = if p then 1 else 0 := by
  by_cases hp : p <;> simp [flagByte, hp]

theorem carryFlag_toNat : (carryFlag a b).toNat = if a.toNat + b.toNat > 255 then 1 else 0 :=
  flagByte_decide_toNat _

theorem noBorrowFlag_toNat : (noBorrowFlag a b).toNat = if a.toNat > b.toNat then 1 else 0 :=
  flagByte_decide_toNat _

theorem shiftRight_toNat : (a >>> 1).toNat = a.toNat / 2 := by
  rw [BitVec.toNat_ushiftRight, Nat.shiftRight_eq_div_pow, pow_one]

theorem shiftLeft_toNat : (a <<< 1).toNat = 2 * a.toNat % 256 := by
  rw [BitVec.toNat_shiftLeft, Nat.shiftLeft_eq, pow_one, mul_comm]

theorem and_one_toNat : (a &&& 0x01).toNat = a.toNat % 2 := by
  rw [BitVec.toNat_and]
  exact Nat.and_one_is_mod a.toNat

theorem shiftRightFlag_toNat : (shiftRightFlag a).toNat = a.toNat % 2 := and_one_toNat a

/-- Bit 7 is all that is left of a byte shifted right by 7, so the mask of R212 drops nothing. -/
theorem shiftLeftFlag_toNat : (shiftLeftFlag a).toNat = a.toNat / 128 := by
  have hbyte : a.toNat < 256 := a.isLt
  have hshift : (a >>> 7).toNat = a.toNat / 128 := by
    rw [BitVec.toNat_ushiftRight, Nat.shiftRight_eq_div_pow]
  rw [shiftLeftFlag, and_one_toNat, hshift]
  omega

end

/-! ### Instructions that write V[x] alone -/

/-- An instruction that changes only V and PC as data has the frame of a register instruction. -/
theorem onlyRegs_of_eq {s t : State} (h : t = { s with v := t.v, pc := t.pc }) : OnlyRegs s t :=
  ⟨h, fun _ => by rw [h]; rfl⟩

/-- What every instruction of the shape `State.writeResult` leaves, P being what the rule says of the byte it
writes. The dispatch of R143 unfolds to that shape, so the statements below follow from it as they stand. -/
theorem writeResult_leaves {P : Byte → Prop} (s : State) (x : RegIdx) {b : Byte} (hb : P b) :
    ∃ t, s.writeResult x b = .next t ∧ P (t.reg x) ∧ SameRegsBut x s t ∧ OnlyRegs s t ∧ t.pc = s.pc + 2 := by
  refine ⟨_, rfl, ?_, fun r hr => setReg_reg_ne s b hr, onlyRegs_of_eq rfl, rfl⟩
  rwa [advance_reg, setReg_reg_self]

/-- Settles O23: the three instructions differ only in the byte they write. -/
theorem loadAddMoveWriteRegister : Obligations.LoadAddMoveWriteRegister := fun s x y kk =>
  ⟨writeResult_leaves (P := (· = kk)) s x rfl,
    writeResult_leaves (P := (·.toNat = ((s.reg x).toNat + kk.toNat) % 256)) s x (add8_toNat _ _),
    writeResult_leaves (P := (· = s.reg y)) s x rfl⟩

/-- Settles O24: the three operations bit by bit. -/
theorem bitwiseOperations : Obligations.BitwiseOperations := fun s x y =>
  ⟨writeResult_leaves (P := fun v => ∀ k, v.getLsbD k = ((s.reg x).getLsbD k || (s.reg y).getLsbD k)) s x
      fun _ => BitVec.getLsbD_or,
    writeResult_leaves (P := fun v => ∀ k, v.getLsbD k = ((s.reg x).getLsbD k && (s.reg y).getLsbD k)) s x
      fun _ => BitVec.getLsbD_and,
    writeResult_leaves (P := fun v => ∀ k, v.getLsbD k = ((s.reg x).getLsbD k ^^ (s.reg y).getLsbD k)) s x
      fun _ => BitVec.getLsbD_xor⟩

/-- Settles O28: the random byte is an operand like any other. -/
theorem randomAndImmediate : Obligations.RandomAndImmediate := fun s x kk =>
  writeResult_leaves (P := fun v => ∀ k, v.getLsbD k = (s.rand.getLsbD k && kk.getLsbD k)) s x
    fun _ => BitVec.getLsbD_and

/-! ### Instructions that write V[x] and VF -/

section
variable {s : State} (res flag : Byte)

theorem vfDestValue_resultLast (h : s.params.vfDest = .resultLast) : s.vfDestValue res flag = res := by
  simp only [State.vfDestValue, h]

theorem vfDestValue_flagLast (h : s.params.vfDest = .flagLast) : s.vfDestValue res flag = flag := by
  simp only [State.vfDestValue, h]

/-- Whatever the draw of D11 is, VF is the result or the flag. -/
theorem vfDestValue_either (h : s.params.vfDest = .either) :
    s.vfDestValue res flag = res ∨ s.vfDestValue res flag = flag := by
  simp only [State.vfDestValue, h]
  exact ite_eq_or_eq _ res flag

end

/-- The write-back of R207 followed by the advance, by whether the destination is VF. -/
theorem flaggedResult_writeFr (s : State) (x : RegIdx) {res flag : Byte} {m n : Nat} (hres : res.toNat = m)
    (hflag : flag.toNat = n) : FlaggedResult s (s.writeFr x res flag).advance x m n := by
  subst hres hflag
  have hframe : OnlyRegs s (s.writeFr x res flag).advance := onlyRegs_of_eq (by rw [writeFr_eq]; rfl)
  have hpc : (s.writeFr x res flag).advance.pc = s.pc + 2 := by rw [writeFr_eq]; rfl
  by_cases hx : x = vf
  · subst hx
    have hvf : (s.writeFr vf res flag).advance.reg vf = s.vfDestValue res flag := by
      rw [advance_reg, writeFr_reg_vf, if_pos rfl]
    refine ⟨fun h => absurd rfl h, fun _ hp => ?_, fun _ hp => ?_, fun _ hp => ?_, fun r hr _ => ?_, hframe, hpc⟩
    · rw [hvf, vfDestValue_resultLast res flag hp]
    · rw [hvf, vfDestValue_flagLast res flag hp]
    · rw [hvf]
      exact (vfDestValue_either res flag hp).imp (congrArg _) (congrArg _)
    · rw [advance_reg, writeFr_reg_vf, if_neg hr]
  · refine ⟨fun _ => ⟨?_, ?_⟩, fun h => absurd h hx, fun h => absurd h hx, fun h => absurd h hx,
      fun r hr hrvf => ?_, hframe, hpc⟩
    · rw [advance_reg, writeFr_reg s x x res flag hx, if_neg hx, if_pos rfl]
    · rw [advance_reg, writeFr_reg s x vf res flag hx, if_pos rfl]
    · rw [advance_reg, writeFr_reg s x r res flag hx, if_neg hrvf, if_neg hr]

/-- Settles O25: the sum and the carry as numbers, written back. -/
theorem addWritesSumAndCarry : Obligations.AddWritesSumAndCarry := fun s x _ =>
  ⟨_, rfl, flaggedResult_writeFr s x (add8_toNat _ _) (carryFlag_toNat _ _)⟩

/-- Settles O26: the difference and the no-borrow flag as numbers, in both orders of the operands. -/
theorem subtractWritesDifferenceAndNoBorrow : Obligations.SubtractWritesDifferenceAndNoBorrow := fun s x _ =>
  ⟨⟨_, rfl, flaggedResult_writeFr s x (sub8_toNat _ _) (noBorrowFlag_toNat _ _)⟩,
    ⟨_, rfl, flaggedResult_writeFr s x (sub8_toNat _ _) (noBorrowFlag_toNat _ _)⟩⟩

/-- Settles O27: the shifts and the bits out as numbers; y plays no part. -/
theorem shiftsWriteResultAndBitOut : Obligations.ShiftsWriteResultAndBitOut := fun s x _ =>
  ⟨⟨_, rfl, flaggedResult_writeFr s x (shiftRight_toNat _) (shiftRightFlag_toNat _)⟩,
    ⟨_, rfl, flaggedResult_writeFr s x (shiftLeft_toNat _) (shiftLeftFlag_toNat _)⟩⟩

end Sys2Proof.Machine.Proofs

/-! SUPPORT. The index register and memory: what Annn, Fx1E and Fx29 leave in I, and what Fx33, Fx55 and Fx65 leave
where every byte they access passes its check. -/

namespace Sys2Proof.Machine.Proofs

open Sys2Proof.Machine.Laws

/-! ### The index register -/

theorem trunc16_toNat (n : Nat) : (trunc16 n).toNat = n % 65536 := BitVec.toNat_ofNat n 16

theorem onlyIndex_setI_advance (s : State) (a : Word) : OnlyIndex s (s.setI a).advance := ⟨rfl, fun _ => rfl⟩

/-- Settles O30: nnn and V[x] × 5 both fit in the 16 bits of I. -/
theorem indexLoads : Obligations.IndexLoads := by
  intro s x nnn
  have hglyph : (trunc16 ((s.reg x).toNat * 5)).toNat = (s.reg x).toNat * 5 := by
    rw [trunc16_toNat]
    omega
  exact ⟨⟨_, rfl, target_toNat nnn, onlyIndex_setI_advance s _, rfl⟩,
    ⟨_, rfl, hglyph, onlyIndex_setI_advance s _, rfl⟩⟩

/-- Settles O31: the sum is truncated to 16 bits, and only I and PC change. -/
theorem addToIndexWraps : Obligations.AddToIndexWraps := fun s _ =>
  ⟨_, rfl, trunc16_toNat _, onlyIndex_setI_advance s _, rfl⟩

/-! ### The stores -/

/-- What a meaning that stores bytes from I up leaves where all can be written: each byte at its offset, and every
other byte and register as before (R77, R74). -/
theorem commit_store_leaves {s : State} {bs : List Byte} (h : ∀ j < bs.length, s.writable j) :
    ∃ t, s.commit ((s.storeBytes (s.effAddr 0) bs).map State.advance) = .next t ∧
      (∀ (j : Nat) (hj : j < bs.length), t.readByte (s.effAddr j) = bs[j]) ∧
      OnlyStored bs.length s t ∧ t.pc = s.pc + 2 :=
  ⟨_, commit_store_of_writable h, fun j hj => read_writeList_inside s.params s.mem (s.effAddr 0) j bs hj,
    ⟨rfl, read_writeList_outside s.params s.mem (s.effAddr 0) bs⟩, rfl⟩

/-- Settles O32: the bytes stored are the digits, each of them small enough for a byte. -/
theorem bcdStoresDecimalDigits : Obligations.BcdStoresDecimalDigits := by
  intro s x hw
  obtain ⟨t, hexec, hread, hframe, hpc⟩ := commit_store_leaves (bs := bcdDigits (s.reg x)) hw
  have hdigit (j : Nat) (hj : j < 3) : t.readByte (s.effAddr j) = (bcdDigits (s.reg x))[j] := hread j hj
  refine ⟨t, hexec, ?_, ?_, ?_, hframe, hpc⟩
  · rw [hdigit 0 (by decide)]
    exact (trunc8_toNat _).trans (by omega)
  · rw [hdigit 1 (by decide)]
    exact (trunc8_toNat _).trans (by omega)
  · rw [hdigit 2 (by decide)]
    exact (trunc8_toNat _).trans (by omega)

/-- Settles O33: the bytes stored are V0..Vx, x + 1 of them. -/
theorem storeWritesRegisters : Obligations.StoreWritesRegisters := by
  intro s x hw
  have hlen : (s.lowRegs x).length = x.val + 1 := lowRegs_length s x
  obtain ⟨t, hexec, hread, hframe, hpc⟩ :=
    commit_store_leaves (bs := s.lowRegs x) fun j hj => hw j (by omega)
  rw [hlen] at hframe
  refine ⟨t, hexec, fun r hr => ?_, hframe, hpc⟩
  have hlow : r.val ≤ x.val := hr
  rw [hread r.val (by omega), lowRegs_getElem]

/-! ### The load -/

theorem exec_load_of_readable {s : State} {x : RegIdx} (h : ∀ j ≤ x.val, s.readable j) :
    exec (.load x) s =
      .next (s.setLowRegs ((List.range (x.val + 1)).map fun j => s.readByte (s.effAddr j))).advance := by
  have hbytes := loadBytes_ok s (s.effAddr 0) (x.val + 1) fun j hj => h j (Nat.le_of_lt_succ hj)
  rw [exec, execLoad, hbytes]
  rfl

/-- Settles O34: the byte at offset r goes to V[r] up to x, and the list read ends there. -/
theorem loadReadsRegisters : Obligations.LoadReadsRegisters := by
  intro s x hreadable
  have hexec := exec_load_of_readable hreadable
  refine ⟨_, hexec, fun r hr => ?_, fun r hr => load_keeps_reg hexec (Fin.not_le.mpr hr), onlyRegs_of_eq rfl, rfl⟩
  have hlow : r.val < x.val + 1 := Nat.lt_succ_of_le hr
  rw [advance_reg, setLowRegs_reg, List.getElem?_map, List.getElem?_range hlow, Option.map_some, Option.getD_some]

/-! ### The store and then the load -/

/-- Settles O37: a byte that can be written can be read, and the load reads the bytes that the store left. -/
theorem storeLoadRoundTrip : Obligations.StoreLoadRoundTrip := by
  intro s u x hw
  obtain ⟨t, hstore, hstored, -⟩ := storeWritesRegisters s x hw
  refine ⟨t, hstore, fun hi hbytes => ?_⟩
  have haddr (j : Nat) : u.effAddr j = s.effAddr j := by rw [State.effAddr, hi, State.effAddr]
  have hreadable : ∀ j ≤ x.val, u.readable j := fun j hj => by
    rw [State.readable, haddr]
    exact (hw j hj).1
  obtain ⟨w, hload, hloaded, -⟩ := loadReadsRegisters u x hreadable
  refine ⟨w, hload, fun r hr => ?_⟩
  calc w.reg r = u.readByte (s.effAddr r.val) := by rw [hloaded r hr, haddr]
    _ = t.readByte (s.effAddr r.val) := hbytes r.val hr
    _ = s.reg r := hstored r hr

end Sys2Proof.Machine.Proofs

/-! SUPPORT. The framebuffer: what 00E0 leaves, and what Dxyn leaves where every row of its sprite can be read, pixel
by pixel and in VF. -/

namespace Sys2Proof.Machine.Proofs

open Sys2Proof.Machine.Laws

/-! ### The clear -/

/-- Settles O39: the grid presented is the blank one. -/
theorem clearScreen : Obligations.ClearScreen := fun s =>
  ⟨(s.present Framebuffer.blank).advance, rfl, blank_pixel, rfl, rfl, rfl, fun _ => rfl⟩

/-! ### The draw -/

/-- The n rows of the sprite at I (R271). -/
def spriteRows (s : State) (n : Nat) : List Byte := (List.range n).map fun r => s.readByte (s.effAddr r)

/-- What Dxyn leaves where every row can be read (R272). -/
def drawn (s : State) (x y : RegIdx) (n : Fin 16) : State := s.drawSprite x y (spriteRows s n.val)

section
variable (s : State) (x y : RegIdx) (n : Fin 16)

theorem spriteRows_length (k : Nat) : (spriteRows s k).length = k := by
  rw [spriteRows, List.length_map, List.length_range]

theorem spriteRows_getElem {k r : Nat} (h : r < (spriteRows s k).length) :
    (spriteRows s k)[r] = s.readByte (s.effAddr r) := by
  simp only [spriteRows, List.getElem_map, List.getElem_range]

theorem exec_drw_of_readable (h : ∀ r < n.val, s.readable r) : exec (.drw x y n) s = .next (drawn s x y n) := by
  have hrows : s.loadBytes (s.effAddr 0) n.val = .ok (spriteRows s n.val) := loadBytes_ok s (s.effAddr 0) n.val h
  rw [exec, execDrw, hrows]
  rfl

theorem onlyDraw_drawn : OnlyDraw s (drawn s x y n) :=
  ⟨rfl, fun _ hr => setReg_reg_ne (s.present _) _ hr, fun _ => rfl⟩

/-- A pixel meets a sprite bit of 1, in the terms of the blit over the rows read. -/
theorem spriteOn_iff_spriteRows (k : Nat) (px : Fin 64) (py : Fin 32) :
    s.spriteOn x y k px py ↔ ∃ (r : Nat) (h : r < (spriteRows s k).length) (b : Nat), b < 8 ∧
      px = pixelColumn (s.reg x) b ∧ py = pixelRow (s.reg y) (0 + r) ∧ spriteBit (spriteRows s k)[r] b = true := by
  simp only [spriteRows_getElem, spriteRows_length, Nat.zero_add, Fin.ext_iff]
  constructor
  · rintro ⟨r, b, hr, hb, hcol, hrow, hbit⟩
    exact ⟨r, hr, b, hb, hcol, hrow, hbit⟩
  · rintro ⟨r, hr, b, hb, hcol, hrow, hbit⟩
    exact ⟨r, b, hr, hb, hcol, hrow, hbit⟩

/-- The sprite has at most 15 rows, so the blit's own rows do not overlap. -/
theorem spriteRows_fit : 0 + (spriteRows s n.val).length ≤ 32 := by
  rw [spriteRows_length]
  omega

theorem drawn_pixel (px : Fin 64) (py : Fin 32) [Decidable (s.spriteOn x y n.val px py)] :
    Framebuffer.pixel (drawn s x y n).fb px py =
      (Framebuffer.pixel s.fb px py ^^ decide (s.spriteOn x y n.val px py)) := by
  obtain ⟨hpixel, -⟩ := blitRows_spec (s.reg x) (s.reg y) 0 _ (spriteRows_fit s n) (s.fb, false)
  rw [decide_eq_decide.mpr (spriteOn_iff_spriteRows s x y n.val px py)]
  exact hpixel px py

variable {s x y n}

theorem drawn_pixel_of_on {px : Fin 64} {py : Fin 32} (h : s.spriteOn x y n.val px py) :
    Framebuffer.pixel (drawn s x y n).fb px py = !Framebuffer.pixel s.fb px py := by
  have := Decidable.isTrue h
  rw [drawn_pixel, decide_eq_true h, Bool.xor_true]

theorem drawn_pixel_of_off {px : Fin 64} {py : Fin 32} (h : ¬ s.spriteOn x y n.val px py) :
    Framebuffer.pixel (drawn s x y n).fb px py = Framebuffer.pixel s.fb px py := by
  have := Decidable.isFalse h
  rw [drawn_pixel, decide_eq_false h, Bool.xor_false]

/-- The collision of the blit: a lit pixel meets a sprite bit of 1 (R273). -/
theorem blit_collides_iff : (blit (s.reg x) (s.reg y) (spriteRows s n.val) s.fb).2 = true ↔
    ∃ px py, s.spriteOn x y n.val px py ∧ Framebuffer.pixel s.fb px py = true := by
  obtain ⟨-, hcoll⟩ := blitRows_spec (s.reg x) (s.reg y) 0 _ (spriteRows_fit s n) (s.fb, false)
  simp only [spriteOn_iff_spriteRows]
  refine hcoll.trans ⟨?_, ?_⟩
  · rintro (h | ⟨r, hr, b, hb, hbit, hlit⟩)
    · cases h
    · exact ⟨_, _, ⟨r, hr, b, hb, rfl, rfl, hbit⟩, hlit⟩
  · rintro ⟨_, _, ⟨r, hr, b, hb, rfl, rfl, hbit⟩, hlit⟩
    exact .inr ⟨r, hr, b, hb, hbit, hlit⟩

theorem drawn_reg_vf :
    (drawn s x y n).reg vf = collisionFlag (blit (s.reg x) (s.reg y) (spriteRows s n.val) s.fb).2 :=
  setReg_reg_self (s.present _) vf _

theorem drawn_vf_of_collision
    (h : ∃ px py, s.spriteOn x y n.val px py ∧ Framebuffer.pixel s.fb px py = true) :
    (drawn s x y n).reg vf = 1 := by
  rw [drawn_reg_vf, blit_collides_iff.mpr h]
  rfl

theorem drawn_vf_of_no_collision
    (h : ∀ px py, s.spriteOn x y n.val px py → Framebuffer.pixel s.fb px py = false) :
    (drawn s x y n).reg vf = 0 := by
  have hmiss : ¬ ∃ px py, s.spriteOn x y n.val px py ∧ Framebuffer.pixel s.fb px py = true :=
    fun ⟨px, py, hon, hlit⟩ => absurd ((h px py hon).symm.trans hlit) Bool.false_ne_true
  rw [drawn_reg_vf, Bool.eq_false_iff.mpr (mt blit_collides_iff.mp hmiss)]
  rfl

end

/-- Settles O40: the blit flips a pixel once for the one sprite bit that lands on it. -/
theorem drawFlipsSpritePixels : Obligations.DrawFlipsSpritePixels := fun s x y n hread =>
  ⟨drawn s x y n, exec_drw_of_readable s x y n hread, fun _ _ => drawn_pixel_of_on, fun _ _ => drawn_pixel_of_off,
    rfl, rfl, onlyDraw_drawn s x y n⟩

/-- Settles O41: VF is the collision of the blit. -/
theorem drawCollisionFlag : Obligations.DrawCollisionFlag := fun s x y n hread =>
  ⟨drawn s x y n, exec_drw_of_readable s x y n hread, drawn_vf_of_collision, drawn_vf_of_no_collision⟩

/-! ### The second draw -/

section
variable {s : State} {x y : RegIdx} {n : Fin 16}

/-- With the coordinates out of VF, the second draw lands where the first did. -/
theorem drawn_spriteOn_iff (hx : x ≠ vf) (hy : y ≠ vf) (k : Nat) (px : Fin 64) (py : Fin 32) :
    (drawn s x y n).spriteOn x y k px py ↔ s.spriteOn x y k px py := by
  obtain ⟨-, hregs, -⟩ := onlyDraw_drawn s x y n
  rw [State.spriteOn, hregs x hx, hregs y hy]
  rfl

theorem drawn_drawn_fb (hx : x ≠ vf) (hy : y ≠ vf) : (drawn (drawn s x y n) x y n).fb = s.fb := by
  refine fb_ext _ _ fun px py => ?_
  by_cases hon : s.spriteOn x y n.val px py
  · have hagain := (drawn_spriteOn_iff (n := n) hx hy n.val px py).mpr hon
    rw [drawn_pixel_of_on hagain, drawn_pixel_of_on hon, Bool.not_not]
  · have hagain := mt (drawn_spriteOn_iff (n := n) hx hy n.val px py).mp hon
    rw [drawn_pixel_of_off hagain, drawn_pixel_of_off hon]

end

/-- Settles O42: every pixel is flipped twice or not at all, and on a blank grid the second draw meets the pixels
that the first lit. -/
theorem drawTwiceErases : Obligations.DrawTwiceErases := by
  intro s x y n hread hx hy
  refine ⟨drawn s x y n, drawn (drawn s x y n) x y n, exec_drw_of_readable s x y n hread,
    exec_drw_of_readable (drawn s x y n) x y n hread, drawn_drawn_fb hx hy, fun hblank => ⟨?_, ?_⟩⟩
  · exact drawn_vf_of_no_collision fun px py _ => hblank px py
  · rintro ⟨px, py, hon⟩
    have hlit : Framebuffer.pixel (drawn s x y n).fb px py = true := by
      rw [drawn_pixel_of_on hon, hblank, Bool.not_false]
    exact drawn_vf_of_collision ⟨px, py, (drawn_spriteOn_iff hx hy n.val px py).mpr hon, hlit⟩

end Sys2Proof.Machine.Proofs

/-! SUPPORT. The keypad and the timers: what Ex9E, ExA1 and Fx0A do with the snapshot of the keys, the await step as
Fx0A run again, and the values that the timer stage lowers. -/

namespace Sys2Proof.Machine.Proofs

open Sys2Proof.Machine.Laws

/-! ### The key that V[x] names -/

section
variable {s : State} {x : RegIdx}

/-- A meaning that reads V[x] as a key index goes on with the key it names (R290). -/
theorem commit_keyIndex_of_key {k : Fin 16} (g : Fin 16 → State) (h : (s.reg x).toNat = k.val) :
    s.commit ((s.keyIndex x).map g) = .next (g k) := by
  have hk : s.keyIndex x = .ok k := by
    rw [keyIndex_ok s x (by omega)]
    exact congrArg Except.ok (Fin.ext h)
  rw [hk]
  rfl

/-- A meaning that reads V[x] as a key index takes the fault of one above 0x0F (R290). -/
theorem commit_keyIndex_out_of_range (g : Fin 16 → State) (h : 0x0F < (s.reg x).toNat) :
    s.commit ((s.keyIndex x).map g) = .next (s.raiseFault ⟨.keyIndexOutOfRange, (s.reg x).toNat⟩) := by
  rw [keyIndex_error s x h]
  rfl

end

/-- A skip on a condition that does not hold, as ExA1 makes it (R292). -/
theorem skipIf_not_pc (s : State) (c : Bool) : (s.skipIf (!c)).pc = if c = true then s.pc + 2 else s.pc + 4 := by
  cases c <;> rfl

/-- Settles O43: both skip on the bit of the snapshot at the key that V[x] names. -/
theorem keySkips : Obligations.KeySkips := fun s _ _ h =>
  ⟨⟨_, commit_keyIndex_of_key _ h, skipIf_pc s _, onlyPc_skipIf s _⟩,
    ⟨_, commit_keyIndex_of_key _ h, skipIf_not_pc s _, onlyPc_skipIf s _⟩⟩

/-- Settles O44: both take the fault of the key index. -/
theorem keyIndexOutOfRangeLatches : Obligations.KeyIndexOutOfRangeLatches := fun _ _ h =>
  ⟨commit_keyIndex_out_of_range _ h, commit_keyIndex_out_of_range _ h⟩

/-! ### The wait for a key -/

theorem keyByte_toNat (k : Fin 16) : (keyByte k).toNat = k.val :=
  (trunc8_toNat k.val).trans (Nat.mod_eq_of_lt (by omega))

section
variable {s : State} (x : RegIdx) {k : Fin 16}

/-- With a key pressed Fx0A writes the lowest one like any other result (R294). -/
theorem exec_ldXK_of_lowestKey (h : lowestKey s.keys = some k) :
    exec (.ldXK x) s = s.writeResult x (keyByte k) := by
  rw [exec, execLdXK, State.keyWait, h]
  rfl

theorem exec_ldXK_of_no_key (h : lowestKey s.keys = none) : exec (.ldXK x) s = .next (s.setAwait (some x)) := by
  rw [exec, execLdXK, State.keyWait, h]

theorem awaitStep_of_lowestKey (h : lowestKey s.keys = some k) :
    s.awaitStep x = ((s.setReg x (keyByte k)).advance).setAwait none := by
  rw [State.awaitStep, h]

theorem awaitStep_of_no_key (h : lowestKey s.keys = none) : s.awaitStep x = s := by
  rw [State.awaitStep, h]

end

/-- Settles O46, by whether some key is pressed. -/
theorem keyWait : Obligations.KeyWait := by
  refine fun s x => ⟨fun k hpressed hlower => ?_, fun hnone => ?_⟩
  · rw [exec_ldXK_of_lowestKey x ((lowestKey_eq_some s.keys k).mpr ⟨hpressed, hlower⟩)]
    exact writeResult_leaves (P := (·.toNat = k.val)) s x (keyByte_toNat k)
  · exact exec_ldXK_of_no_key x ((lowestKey_eq_none s.keys).mpr hnone)

/-! ### The await step -/

section
variable {s : State} {x : RegIdx}

/-- A waiting cycle is the await step, the timer stage and the bookkeeping (R295). -/
theorem step_await (hcycle : s.atCycle) (hfault : s.fault = none) (hwait : s.await = some x) :
    step s = .next ((s.awaitStep x).timerStep.actionDone false) := by
  have hend := endCycle_of_none (s.awaitStep x) ((awaitStep_fault s x).trans hfault)
  rw [step_atCycle s _ hcycle (cycle_await s x hfault hwait), hend]

/-- The await step is Fx0A executed again with AWAIT cleared (R295). -/
theorem exec_ldXK_setAwait_none (hwait : s.await = some x) :
    exec (.ldXK x) (s.setAwait none) = .next (s.awaitStep x) := by
  cases hkey : lowestKey s.keys with
  | some k =>
    rw [awaitStep_of_lowestKey x hkey]
    exact exec_ldXK_of_lowestKey x hkey
  | none =>
    have hsame : (s.setAwait none).setAwait (some x) = s := by rw [← hwait]; rfl
    rw [awaitStep_of_no_key x hkey, exec_ldXK_of_no_key (s := s.setAwait none) x hkey, hsame]

end

/-- Settles O15, by whether some key is pressed. -/
theorem awaitStepTakesLowestKey : Obligations.AwaitStepTakesLowestKey := by
  intro s x hcycle hfault hwait
  rw [step_await hcycle hfault hwait]
  refine ⟨fun k hpressed hlower => ?_, fun hnone => ?_⟩
  · rw [awaitStep_of_lowestKey x ((lowestKey_eq_some s.keys k).mpr ⟨hpressed, hlower⟩)]
    have hvx : (s.setReg x (keyByte k)).reg x = keyByte k := setReg_reg_self s x _
    exact ⟨_, rfl, (congrArg BitVec.toNat hvx).trans (keyByte_toNat k), rfl, rfl,
      fun r hr => setReg_reg_ne s _ hr, rfl⟩
  · rw [awaitStep_of_no_key x ((lowestKey_eq_none s.keys).mpr hnone)]
    rfl

/-- Settles O16: under the invariant a waiting block is not halted and PC still addresses the Fx0A, so the cycle with
AWAIT cleared fetches it. -/
theorem awaitStepIsReexecution : Obligations.AwaitStepIsReexecution := by
  intro s hinv hwaiting
  obtain ⟨x, hwait⟩ := Option.ne_none_iff_exists'.mp hwaiting
  have hfault : s.fault = none := hinv.await_fault.resolve_left hwaiting
  obtain ⟨hpc, hdec⟩ := hinv.await_fetch x hwait
  calc s.cycle = .next (s.awaitStep x).endCycle := cycle_await s x hfault hwait
    _ = (s.setAwait none).cycle :=
      (cycle_exec (s.setAwait none) _ (.ldXK x) hfault rfl hpc hdec (exec_ldXK_setAwait_none hwait)).symm

/-! ### The timers -/

section
variable {t : State} (h : t.fault = none)
include h

/-- A cycle that does not fault lowers the DT its instruction left (R145, R330). -/
theorem endCycle_dt_toNat : t.endCycle.dt.toNat = t.dt.toNat - 1 := by
  rw [endCycle_of_none t h, timerStep_dt, countDown_toNat]

/-- A cycle that does not fault lowers the ST its instruction left (R145, R330). -/
theorem endCycle_st_toNat : t.endCycle.st.toNat = t.st.toNat - 1 := by
  rw [endCycle_of_none t h, timerStep_st, countDown_toNat]

end

/-- Settles O45: each instruction leaves the fault latch, so the end of its cycle lowers the timer it left. -/
theorem timerInstructions : Obligations.TimerInstructions := by
  refine fun s x => ⟨?_, ?_, ?_⟩
  · exact ⟨(s.setReg x s.dt).advance, rfl, setReg_reg_self s x _, fun r hr => setReg_reg_ne s _ hr,
      onlyRegs_of_eq rfl, rfl, endCycle_dt_toNat (t := (s.setReg x s.dt).advance)⟩
  · exact ⟨(s.setDt (s.reg x)).advance, rfl, rfl, rfl, fun _ => rfl, rfl,
      endCycle_dt_toNat (t := (s.setDt (s.reg x)).advance)⟩
  · exact ⟨(s.setSt (s.reg x)).advance, rfl, rfl, rfl, fun _ => rfl, rfl,
      endCycle_st_toNat (t := (s.setSt (s.reg x)).advance)⟩

end Sys2Proof.Machine.Proofs

/-! SUPPORT. Exceptions, timers and the host's outputs: that every meaning answers a next state, what a latched fault
keeps, the timers a cycle leaves before its timer stage, and what the outputs read. -/

namespace Sys2Proof.Machine.Proofs

open Sys2Proof.Machine.Laws

/-! ### Executing an instruction -/

/-- Settles O7: there is no reason for the outcome `fault`, and no meaning refuses. -/
theorem everyInstructionAnswersNext : Obligations.EveryInstructionAnswersNext := by
  intro i s
  cases h : exec i s with
  | next t => exact ⟨t, rfl⟩
  | fault e => cases e
  | refused e => exact absurd h (exec_ne_stop i s e)

/-- Settles O14: an instruction that R312 does not list keeps the latch, as its frame says. -/
theorem onlyListedInstructionsFault : Obligations.OnlyListedInstructionsFault := by
  intro i s t h hne
  rcases exec_frame i s t h with hf | ⟨f, hmay, -⟩
  · exact absurd hf.fault hne
  · exact hmay

/-! ### A halted block -/

/-- Settles O10: a halted block's cycle leaves its state, and the step adds the bookkeeping. -/
theorem haltedCycleChangesNothing : Obligations.HaltedCycleChangesNothing := fun s hcycle hhalted =>
  step_atCycle s s hcycle (cycle_halted s hhalted)

/-- Settles O11, by the host's action: `load` and `clear_redraw` leave the latch, and a halted cycle everything. -/
theorem onlyInitClearsFault : Obligations.OnlyInitClearsFault := by
  intro s t hhalted h hinit
  rcases step_cases s t h with ⟨⟨rest, hi⟩, -⟩ | ⟨⟨rom, rest, -, rfl⟩, -⟩ | ⟨-, rfl⟩ | ⟨hcycle, -⟩
  · exact absurd (by rw [hi, List.head?_cons]) hinit
  · rw [actionDone_fault, hostLoad_eq]
  · rw [actionDone_fault, hostClearRedraw_fault]
  · rw [haltedCycleChangesNothing s hcycle hhalted] at h
    cases h
    rfl

/-! ### The timers of a cycle -/

/-- The next cycle executes at most one instruction. -/
theorem fetches_unique {s : State} {i j : Instr} (hi : s.fetches i) (hj : s.fetches j) : i = j := by
  obtain ⟨-, -, hdi⟩ := hi
  obtain ⟨-, -, hdj⟩ := hj
  exact Except.ok.inj (hdi.symm.trans hdj)

/-- The timers of u are those that a cycle starting in s leaves to its timer stage: as they were, except that Fx15
writes V[x] to DT and Fx18 to ST (R145, R296, R297). -/
structure LeavesTimers (s u : State) : Prop where
  dt     : (∀ x, ¬ s.fetches (.ldDtX x)) → u.dt = s.dt
  dt_set : ∀ x, s.fetches (.ldDtX x) → u.dt = s.reg x
  st     : (∀ x, ¬ s.fetches (.ldStX x)) → u.st = s.st
  st_set : ∀ x, s.fetches (.ldStX x) → u.st = s.reg x

/-- A waiting cycle fetches nothing and leaves both timers to its timer stage (R295). -/
theorem awaitStep_leavesTimers {s : State} {x : RegIdx} (hwait : s.await = some x) :
    LeavesTimers s (s.awaitStep x) := by
  have hnofetch : ∀ i, ¬ s.fetches i := by
    rintro i ⟨hidle, -⟩
    rw [hwait] at hidle
    cases hidle
  exact ⟨fun _ => awaitStep_dt s x, fun _ hy => absurd hy (hnofetch _), fun _ => awaitStep_st s x,
    fun _ hy => absurd hy (hnofetch _)⟩

theorem exec_leavesTimers {s u : State} {i : Instr} (hi : s.fetches i) (hframe : Frame i s u) :
    LeavesTimers s u where
  dt hno := hframe.dt fun x hx => hno x (hx ▸ hi)
  dt_set x hx := hframe.dt_set x (fetches_unique hi hx)
  st hno := hframe.st fun x hx => hno x (hx ▸ hi)
  st_set x hx := hframe.st_set x (fetches_unique hi hx)

/-- A committed cycle of a running block is an await step or an instruction, then the timer stage (R140, R145). -/
theorem cycle_committed {s t : State} (h : s.cycle = .next t) (hs : s.fault = none) (ht : t.fault = none) :
    ∃ u, u.fault = none ∧ t = u.endCycle ∧ LeavesTimers s u := by
  rcases cycle_cases s t h with ⟨hhalted, -⟩ | ⟨-, x, hwait, rfl⟩ | ⟨-, -, ⟨f, rfl⟩, -⟩ | ⟨-, i, u, hi, hu, rfl⟩
  · exact absurd hs hhalted
  · exact ⟨_, (awaitStep_fault s x).trans hs, rfl, awaitStep_leavesTimers hwait⟩
  · cases ht
  · rw [endCycle_fault] at ht
    rcases exec_frame i s u hu with hframe | ⟨f, -, rfl⟩
    · exact ⟨u, ht, rfl, exec_leavesTimers hi hframe⟩
    · cases ht

/-- Settles O12: a faulting cycle changes only the latch, and a committed one lowers the timers it leaves. -/
theorem cyclesCountTimersDown : Obligations.CyclesCountTimersDown := by
  intro s t hcycle hs hstep
  refine ⟨fun ht => ?_, fun ht => ?_⟩
  · rw [faultsArePrecise s t hcycle hs hstep ht]
    exact ⟨rfl, rfl⟩
  · obtain ⟨v, hv, rfl⟩ := step_atCycle_inv s t hcycle hstep
    obtain ⟨u, hu, rfl, htimers⟩ := cycle_committed hv hs ht
    rw [actionDone_dt, actionDone_st, endCycle_dt_toNat hu, endCycle_st_toNat hu]
    exact ⟨fun hno => by rw [htimers.dt hno], fun x hx => by rw [htimers.dt_set x hx],
      fun hno => by rw [htimers.st hno], fun x hx => by rw [htimers.st_set x hx]⟩

/-- A safe run starts unhalted, however long it is (R150). -/
theorem fault_eq_none_of_safeRun {P : State → Prop} {k : Nat} {s t : State} (h : SafeRun P k s t) :
    s.fault = none := by
  cases k with
  | zero => exact not_not.mp h.2
  | succ k => exact not_not.mp h.1

/-- Settles O56, by induction on the number of cycles: each is committed, because the run goes on unhalted. -/
theorem delayTimerMeasuresCycles : Obligations.DelayTimerMeasuresCycles := by
  intro k
  induction k with
  | zero =>
    rintro s t ⟨rfl, -⟩
    rfl
  | succ k ih =>
    intro s t hrun
    have hs := fault_eq_none_of_safeRun hrun
    obtain ⟨-, ⟨hcycle, hno⟩, u, hstep, hrest⟩ := hrun
    obtain ⟨-, hcommitted⟩ := cyclesCountTimersDown s u hcycle hs hstep
    obtain ⟨hdt, -⟩ := hcommitted (fault_eq_none_of_safeRun hrest)
    calc t.dt.toNat = u.dt.toNat - k := ih u t hrest
      _ = s.dt.toNat - 1 - k := by rw [hdt hno]
      _ = s.dt.toNat - (k + 1) := by omega

/-! ### The host's ports -/

/-- Settles O59: the action at the head of the script is performed, and no instruction clears REDRAW. -/
theorem clearRedrawAction : Obligations.ClearRedrawAction :=
  ⟨step_clearRedraw, fun _ _ _ => exec_keeps_redraw⟩

/-- Number 0 is left for the empty latch (R311). -/
theorem number_ne_zero (c : FaultCode) : c.number ≠ 0 := by
  cases c <;> decide

theorem soundActive_iff (s : State) : s.soundActive = true ↔ s.st.toNat ≠ 0 := by
  rw [State.soundActive, bne_iff_ne]
  exact not_congr BitVec.toNat_inj.symm

theorem faultNumber_of_some {s : State} {f : FaultRecord} (h : s.fault = some f) :
    s.faultNumber = f.code.number := by
  rw [State.faultNumber, h]
  rfl

theorem faultNumber_eq_zero_iff (s : State) : s.faultNumber = 0 ↔ ¬ s.halted := by
  cases h : s.fault with
  | none => simp [State.faultNumber, State.halted, h]
  | some f => simp [faultNumber_of_some h, State.halted, h, number_ne_zero]

/-- Settles O60, the number of each code read off the table of R311. -/
theorem outputsReadState : Obligations.OutputsReadState := by
  refine fun s => ⟨soundActive_iff s, faultNumber_eq_zero_iff s, fun code info h => ?_⟩
  have hnumber : s.faultNumber = code.number := faultNumber_of_some h
  rw [hnumber]
  cases code <;> decide

end Sys2Proof.Machine.Proofs

/-! SUPPORT. The host's `init` and `load`: the values after initialisation, and what a load does by the length of its
ROM and by when it comes. -/

namespace Sys2Proof.Machine.Proofs

open Sys2Proof.Machine.Laws

/-! ### `init` -/

/-- No initial value of R49 reads the model's bookkeeping, so the host may set it at will (logs 5, 7 and 8). -/
theorem initialValues_bookkeeping {s : State} (h : InitialValues s) (script : List HostAction) (tick : Nat)
    (fresh : Bool) : InitialValues { s with script := script, tick := tick, freshInit := fresh } := by
  obtain ⟨hv, hi, hpc, hsp, hstack, hdt, hst, hfb, hredraw, hfont, hmem, hawait, hfault⟩ := h
  exact ⟨hv, hi, hpc, hsp, hstack, hdt, hst, hfb, hredraw, hfont, hmem, hawait, hfault⟩

/-- `init` keeps only the parameters and the bookkeeping of the state it starts in (R350, R353). -/
theorem hostInit_actionDone_initialValues (s : State) (fresh : Bool) :
    InitialValues (s.hostInit.actionDone fresh) :=
  initialValues_bookkeeping (resetWith_initialValues s.params) s.script.tail (s.tick + 1) fresh

theorem hostInit_actionDone_script (s : State) (fresh : Bool) :
    (s.hostInit.actionDone fresh).script = s.script.tail := rfl

/-- Settles O57: whatever the state, the step is `hostInit` and the bookkeeping. -/
theorem initActionResetsEverything : Obligations.InitActionResetsEverything := fun s rest h =>
  ⟨s.hostInit.actionDone true, step_init s rest h, hostInit_actionDone_initialValues s true, rfl,
    by rw [hostInit_actionDone_script, h, List.tail_cons]⟩

/-! ### `load` -/

theorem romFits_iff (rom : List Byte) : romFits rom = true ↔ rom.length ≤ 3584 := decide_eq_true_iff

theorem hostLoad_of_fits (s : State) {rom : List Byte} (h : rom.length ≤ 3584) :
    s.hostLoad rom =
      { s with mem := Memory.writeList s.params s.mem progBase rom, loadStatus := some .ok } :=
  if_pos ((romFits_iff rom).mpr h)

theorem hostLoad_of_too_long (s : State) {rom : List Byte} (h : 3584 < rom.length) :
    s.hostLoad rom = { s with loadStatus := some .rejected } :=
  if_neg (mt (romFits_iff rom).mp (Nat.not_le.mpr h))

theorem hostLoad_readByte_inside (s : State) {rom : List Byte} (h : rom.length ≤ 3584) {j : Nat}
    (hj : j < rom.length) : (s.hostLoad rom).readByte (0x200 + j) = rom[j] := by
  rw [hostLoad_of_fits s h]
  exact read_writeList_inside s.params s.mem progBase j rom hj

/-- A load that copies its ROM leaves every byte outside it (R351). -/
theorem hostLoad_sameBytesOutside (s : State) {rom : List Byte} (h : rom.length ≤ 3584) :
    SameBytesOutside 0x200 rom.length s (s.hostLoad rom) := by
  rw [hostLoad_of_fits s h]
  exact read_writeList_outside s.params s.mem progBase rom

/-- A load that does not come directly after `init` is outside the contract (R345). -/
theorem step_load_refused (s : State) (rom : List Byte) (rest : List HostAction)
    (h : s.script = .load rom :: rest) (hf : s.freshInit = false) : step s = .refused .loadOutsideContract := by
  simp [step, State.perform, h, hf]

/-- Settles O58, by whether the load comes directly after `init` and whether its ROM fits. -/
theorem loadCopiesOrRejectsRom : Obligations.LoadCopiesOrRejectsRom := by
  refine fun s rom rest h => ⟨fun hfresh hfits => ?_, fun hfresh hlong => ?_, step_load_refused s rom rest h⟩
  · exact ⟨(s.hostLoad rom).actionDone false, step_load s rom rest h hfresh,
      fun j hj => hostLoad_readByte_inside s hfits hj, hostLoad_sameBytesOutside s hfits,
      by rw [actionDone_mem, hostLoad_of_fits s hfits]⟩
  · rw [step_load s rom rest h hfresh, hostLoad_of_too_long s hlong]

end Sys2Proof.Machine.Proofs

/-! SUPPORT. The spec's sample words: a legal one is the encoding of its instruction, an illegal one is refused by name. -/

namespace Sys2Proof.Proofs

theorem decode_of_encode_eq {op : Word} {i : Instr} (henc : encode i = op) : decode op = .ok i :=
  henc ▸ decode_encode i

theorem decode_of_illegal {op : Word} (hillegal : legalWord op = false) : decode op = .error (.unknownOpcode op) :=
  (decoderTakesExactlyLegalWords op).2 hillegal

/-- Settles O1: eleven words are encodings of their instructions (O2), and four are illegal (O5). -/
theorem specWordsDecode : Obligations.SpecWordsDecode := by
  refine ⟨?cls, ?ret, ?seReg, ?ldImm, ?shl, ?shr, ?sneReg, ?drw, ?skp, ?ldFX, ?load, ?w0000, ?w5121, ?w8AB8, ?wF130⟩
  case cls | ret | seReg | ldImm | shl | shr | sneReg | drw | skp | ldFX | load => exact decode_of_encode_eq rfl
  case w0000 | w5121 | w8AB8 | wF130 => exact decode_of_illegal (by decide)

end Sys2Proof.Proofs
